-- ==== Sys2Proof/Config.lean ====
section
/-! DEFINITION. The implementation parameters the spec leaves open (R8, R9). `LEN_W` (R10) is an argument of the
port views in Machine/Ports.lean, since it plays no part in any semantic rule. -/

namespace Sys2Proof

/-- The parameters of one implementation, fixed while it runs: no step changes them (log 4).
`msgCap` is `MSG_CAP`, `none` for `unbounded` (R8). `eosFlush` is `EOS_FLUSH` (R9). -/
structure Params where
  msgCap   : Option Nat
  eosFlush : Bool
deriving DecidableEq, Repr

/-- R8: a finite `MSG_CAP` is at least 3. -/
def Params.wf (p : Params) : Bool :=
  match p.msgCap with
  | none => true
  | some n => decide (3 ≤ n)

/-- The values that reproduce the source: `MSG_CAP` unbounded (R8), `EOS_FLUSH` 0 (R9).
DESIGN CHOICE (log 4): the spec leaves both parameters open and names these as reference and default. -/
def Params.reference : Params := { msgCap := none, eosFlush := false }

end Sys2Proof
end

