-- ==== Sys2Proof/Word.lean ====
section
/-! DEFINITION. The word types of the block. Every quantity is unsigned (R16, R120); widths are R7's. -/

namespace Sys2Proof

/-- A raw byte, 0 to 255; bit 7 is the most significant (R7, R40). -/
abbrev Byte := BitVec 8

/-- A command kind: the high nibble of a status byte (R7, R61). -/
abbrev Kind := BitVec 4

/-- A channel: the low nibble of a status byte (R7, R61). -/
abbrev Channel := BitVec 4

/-- The payload of a data byte, 0 to 127 (R7, R62). -/
abbrev FieldValue := BitVec 7

/-- The derived value of pitch-bend, 0 to 16383 (R7, R69). -/
abbrev BendValue := BitVec 14

/-- A raw message: any finite sequence of bytes, in arrival order (R21, R41, R100). -/
abbrev RawMessage := List Byte

end Sys2Proof
end

