-- ==== Sys2Proof/Syntax.lean ====
section
/-! DEFINITION. The operations of the block, one constructor per row of spec/opcode_table.json, and the names of the
protocol: commands, fields, decode errors. -/

namespace Sys2Proof

/-- The block's operations (R2). The first eight are the Interpreter's commands (R110 to R117), the last two the
Framer's operations selected by a byte's class (R82, R83). The Framer operation END has no bit pattern and no row
(R70, R84): it is an input event, `Sys2Proof.Machine.execEnd`. -/
inductive Instr where
  | noteOff         (channel : Channel) (key velocity : FieldValue)
  | noteOn          (channel : Channel) (key velocity : FieldValue)
  | aftertouch      (channel : Channel) (key touch : FieldValue)
  | controller      (channel : Channel) (controller value : FieldValue)
  | programChange   (channel : Channel) (instrument : FieldValue)
  | channelPressure (channel : Channel) (pressure : FieldValue)
  | pitchBend       (channel : Channel) (lsb msb : FieldValue)
  | system          (channel : Channel)
  | status          (b : Byte)
  | data            (b : Byte)
deriving DecidableEq, Repr

/-- The two levels of operations (R2): the Framer's, selected by one input byte, and the Interpreter's, selected by a
raw message. -/
inductive Level where
  | framer
  | interpreter
deriving DecidableEq, Repr

/-- The level an operation belongs to: "level" of its row in spec/opcode_table.json. -/
def Instr.level : Instr → Level
  | .noteOff _ _ _ => .interpreter
  | .noteOn _ _ _ => .interpreter
  | .aftertouch _ _ _ => .interpreter
  | .controller _ _ _ => .interpreter
  | .programChange _ _ => .interpreter
  | .channelPressure _ _ => .interpreter
  | .pitchBend _ _ _ => .interpreter
  | .system _ => .interpreter
  | .status _ => .framer
  | .data _ => .framer

/-- The eight commands of the command table (R27). -/
inductive Command where
  | noteOff
  | noteOn
  | aftertouch
  | controller
  | programChange
  | channelPressure
  | pitchBend
  | system
deriving DecidableEq, Repr

/-- The field names of the command table (R27). `value` is the 7-bit field of `controller`; the derived entry of
`pitch-bend` is a different thing (R27) and stands in `Event.value`. -/
inductive FieldName where
  | key
  | velocity
  | touch
  | controller
  | value
  | instrument
  | pressure
  | lsb
  | msb
deriving DecidableEq, Repr

/-- The three decode errors with their payloads (R130 to R133). -/
inductive DecodeError where
  | empty
  | unknownCommand (kind : Kind)
  | arityMismatch (expected actual : Nat)
deriving DecidableEq, Repr

end Sys2Proof
end

