-- ==== Sys2Proof/Machine/State.lean ====
section
/-! DEFINITION. The state of the block and of what the environment will do next, as plain data; the records that cross
the ports; the reasons a step can stop; the state after reset. -/

namespace Sys2Proof.Machine

/-- A decoded event (R105): the command, the channel, the whole raw message, the field entries in descriptor order,
and for `pitch-bend` only the derived `value` (R106). -/
structure Event where
  command : Command
  channel : Channel
  raw     : RawMessage
  fields  : List (FieldName × FieldValue)
  value   : Option BendValue
deriving DecidableEq, Repr

/-- The Interpreter's result: `Ok(event)` or `Err(error)` (R100). -/
inductive Result where
  | ok  (e : Event)
  | err (x : DecodeError)
deriving DecidableEq, Repr

/-- What the ports present in one step: a raw message (R33) together with its one result (R34, R47). -/
structure Emission where
  raw    : RawMessage
  result : Result
deriving DecidableEq, Repr

/-- Why the byte source ended: end-of-stream or error (R84, R134). -/
inductive Cause where
  | eos
  | err
deriving DecidableEq, Repr

/-- The two conditions that stop the block (R130): the end of the byte source, and a data byte on a full finite
buffer. -/
inductive Stop where
  | streamFatal (cause : Cause)
  | bufferOverflow
deriving DecidableEq, Repr

/-- An input event, as `SrcRead()` returns it (R16, R32). -/
inductive InputEvent where
  | byte  (b : Byte)
  | ended (cause : Cause)
deriving DecidableEq, Repr

/-- The input signals of one clock cycle (R32, R35). `srcByte` means something only when `srcValid` is 1. -/
structure CycleIn where
  rst       : Bool
  sinkReady : Bool
  srcValid  : Bool
  srcByte   : Byte
  srcEos    : Bool
  srcErr    : Bool
deriving DecidableEq, Repr

/-- One thing the environment does: it drives the block for one clock cycle (R32, R35), or it uses the Interpreter on
its own, giving it a raw message directly (R100, R108, R119). DESIGN CHOICE (log 1, 2). -/
inductive Input where
  | cycle   (c : CycleIn)
  | message (m : RawMessage)
deriving DecidableEq, Repr

/-- The state. `buf`, `fatal`, `fatalCause`, `fault` are the block's architectural state (R20, R21, R25, R26).
`port` is what the raw-message and event ports present in the step just taken (R33, R34, R170; log 5). `params` are
the implementation's parameters (R8, R9; log 4). `input` is the model's own: what the environment does next, oldest
first (log 1). -/
structure State where
  params     : Params
  buf        : List Byte
  fatal      : Bool
  fatalCause : Cause
  fault      : Bool
  port       : Option Emission
  input      : List Input
deriving DecidableEq, Repr

/-- Why the machine stops with a fault. -/
inductive Fault where
  /-- A Framer operation (STATUS, DATA, END) run while `fatal` or `fault` is set: there is no step (R81, R91, U13).
  Raised by `execStatus`, `execData`, `execEnd`; never by `step`, which consumes no event in a stopped state. Safe. -/
  | stopped
deriving DecidableEq, Repr

/-- Why the model gives no meaning. -/
inductive Refusal where
  /-- An operation whose arm of `exec` has no meaning. No arm of this model uses it. Safe. -/
  | notModelled (mnemonic : String)
  /-- More than one of `src_valid`, `src_eos`, `src_err` in a cycle: outside the block's contract, and a model refuses
  it (R32, U11). Raised by `runCycle`. Safe. -/
  | multiHot
  /-- A byte of 128 or more in a data position of a message that no error rejects: outside the Interpreter's domain,
  and a model refuses it (R108, U10). Raised by `emit` and `answerReject`. Safe. -/
  | outOfDomain
deriving DecidableEq, Repr

/-- The machine right after reset (R36): `buf` empty, `fatal`, `fatal_cause` and `fault` 0, nothing presented.
DESIGN CHOICE: the parameters are the reference values (log 4) and no input is placed (log 1). -/
def State.reset : State where
  params := Params.reference
  buf := []
  fatal := false
  fatalCause := .eos
  fault := false
  port := none
  input := []

end Sys2Proof.Machine
end

