-- ==== Sys2Proof/Machine/Flags.lean ====
section
/-! DEFINITION. The flags `fatal`, `fatal_cause`, `fault` and what is computed from them. The block has no condition
codes (10_state.md section 4). -/

namespace Sys2Proof.Machine

/-- `fatal` or `fault` is set: the Framer takes no step (R91). -/
def State.stopped (s : State) : Bool := s.fatal || s.fault

/-- The output `src_ready`: 1 exactly when `fatal`, `fault` and `rst` are 0 and `sink_ready` is 1 (R56). -/
def State.srcReady (s : State) (c : CycleIn) : Bool :=
  !s.fatal && !s.fault && !c.rst && c.sinkReady

/-- The bit of `fatal_cause`: 0 for end-of-stream, 1 for error (R25, R136). -/
def Cause.code : Cause → BitVec 1
  | .eos => 0
  | .err => 1

/-- The buffer is full: `MSG_CAP` is finite and `len(buf) == MSG_CAP` (R83, R85). -/
def State.bufFull (s : State) : Bool := decide (s.params.msgCap = some s.buf.length)

end Sys2Proof.Machine
end

