-- ==== Sys2Proof/WellFormed.lean ====
section
/-! DEFINITION. The checks an operation's operands meet. The commands' operands fit their widths by type (R61, R62);
the two Framer operations each require the byte class that selects them (R60). -/

namespace Sys2Proof

/-- STATUS takes a byte of 128 or more (R82), DATA a byte of 127 or less (R83). -/
def Instr.wellFormed : Instr → Bool
  | .noteOff _ _ _ => true
  | .noteOn _ _ _ => true
  | .aftertouch _ _ _ => true
  | .controller _ _ _ => true
  | .programChange _ _ => true
  | .channelPressure _ _ => true
  | .pitchBend _ _ _ => true
  | .system _ => true
  | .status b => decide (128 ≤ b.toNat)
  | .data b => decide (b.toNat ≤ 127)

end Sys2Proof
end

