-- ==== Sys2Proof/Decode.lean ====
section
/-! DEFINITION. The decoder, total on any bytes and rejecting by name, and after it the encoder, both from the formats
of 30_encoding.md (R60 to R63, R67 to R70). -/

namespace Sys2Proof

/-- Why a byte sequence is no command: one of the Interpreter's three errors (R71), or a byte of 128 or more in a data
position of a message that no error rejects, which R108 puts outside the domain. -/
inductive MessageReject where
  | error (e : DecodeError)
  | highDataByte
deriving DecidableEq, Repr

/-- Why a byte sequence is no operation of a level: at the Interpreter a rejected message, at the Framer anything but
exactly one byte (R47). -/
inductive Reject where
  | message (r : MessageReject)
  | notOneByte
deriving DecidableEq, Repr

/-- R60: a status byte has value 128 or more. -/
def isStatusByte (b : Byte) : Bool := decide (128 ≤ b.toNat)

/-- The Framer's decoder: every byte is a status byte or a data byte (R60, R81). -/
def decodeByte (b : Byte) : Instr :=
  if isStatusByte b then .status b else .data b

/-- The 7-bit payload of a data byte, its bits 6:0 (R62); none for a status byte. -/
def payloadOf (b : Byte) : Option FieldValue :=
  if isStatusByte b then none else some (b.extractLsb' 0 7)

/-- Format S0: no byte after the status byte (R63). -/
def formatS0 (i : Instr) : RawMessage → Except MessageReject Instr
  | [] => .ok i
  | rest => .error (.error (.arityMismatch 0 rest.length))

/-- Format S1: one data byte after the status byte (R63). -/
def formatS1 (i : FieldValue → Instr) : RawMessage → Except MessageReject Instr
  | [a] =>
    match payloadOf a with
    | some x => .ok (i x)
    | none => .error .highDataByte
  | rest => .error (.error (.arityMismatch 1 rest.length))

/-- Format S2: two data bytes after the status byte, the first field first (R41, R63). -/
def formatS2 (i : FieldValue → FieldValue → Instr) : RawMessage → Except MessageReject Instr
  | [a, b] =>
    match payloadOf a, payloadOf b with
    | some x, some y => .ok (i x y)
    | _, _ => .error .highDataByte
  | rest => .error (.error (.arityMismatch 2 rest.length))

/-- The Interpreter's decoder: the opcode map of R70 over the formats of R63. -/
def decodeMessage : RawMessage → Except MessageReject Instr
  | [] => .error (.error .empty)
  | m0 :: rest =>
    let c : Channel := m0.extractLsb' 0 4
    match (m0.extractLsb' 4 4).toNat with
    | 0x8 => formatS2 (.noteOff c) rest
    | 0x9 => formatS2 (.noteOn c) rest
    | 0xa => formatS2 (.aftertouch c) rest
    | 0xb => formatS2 (.controller c) rest
    | 0xc => formatS1 (.programChange c) rest
    | 0xd => formatS1 (.channelPressure c) rest
    | 0xe => formatS2 (.pitchBend c) rest
    | 0xf => formatS0 (.system c) rest
    | _ => .error (.error (.unknownCommand (m0.extractLsb' 4 4)))

/-- The decoder of a level on any bytes. -/
def decode : Level → List Byte → Except Reject Instr
  | .framer, [b] => .ok (decodeByte b)
  | .framer, _ => .error .notOneByte
  | .interpreter, m =>
    match decodeMessage m with
    | .ok i => .ok i
    | .error r => .error (.message r)

/-- The bytes of a word as the table numbers it, byte 0 (the status byte) being the MOST significant ("bit_order" of
the table's rows; R70). -/
def tableBytes (nbits w : Nat) : List Byte :=
  (List.range (nbits / 8)).map fun i => BitVec.ofNat 8 (w / 256 ^ (nbits / 8 - 1 - i))

/-- The level of a table word. Rows of two and three bytes are the Interpreter's. Among the one-byte rows a word of
`system` (0xF0 to 0xFF) is also a word of STATUS: the row with more fixed bits is taken.
DESIGN CHOICE (log 6): the table does not say which of the two rows such a word stands for. -/
def tableLevel : List Byte → Level
  | [b] => if 0xF0 ≤ b.toNat then .interpreter else .framer
  | _ => .interpreter

/-- The operation the decoder reads from a word of `nbits` bits, numbered as spec/opcode_table.json numbers it. -/
def decodeTableWord (nbits w : Nat) : Option Instr :=
  if nbits % 8 = 0 ∧ w < 2 ^ nbits then
    match decode (tableLevel (tableBytes nbits w)) (tableBytes nbits w) with
    | .ok i => some i
    | .error _ => none
  else none

/-- The status byte of a kind and a channel: kind in bits 7:4, channel in bits 3:0 (R61). -/
def statusByteOf (kind : Kind) (channel : Channel) : Byte := kind ++ channel

/-- The data byte of a payload: bit 7 zero (R62). -/
def dataByteOf (v : FieldValue) : Byte := v.setWidth 8

/-- The bytes of an operation (R63 for the commands, R60 for the Framer's operations). -/
def encode : Instr → List Byte
  | .noteOff c key velocity => [statusByteOf 0x8 c, dataByteOf key, dataByteOf velocity]
  | .noteOn c key velocity => [statusByteOf 0x9 c, dataByteOf key, dataByteOf velocity]
  | .aftertouch c key touch => [statusByteOf 0xa c, dataByteOf key, dataByteOf touch]
  | .controller c controller value => [statusByteOf 0xb c, dataByteOf controller, dataByteOf value]
  | .programChange c instrument => [statusByteOf 0xc c, dataByteOf instrument]
  | .channelPressure c pressure => [statusByteOf 0xd c, dataByteOf pressure]
  | .pitchBend c lsb msb => [statusByteOf 0xe c, dataByteOf lsb, dataByteOf msb]
  | .system c => [statusByteOf 0xf c]
  | .status b => [b]
  | .data b => [b]

end Sys2Proof
end

