-- ==== Sys2Proof/Machine/Table.lean ====
section
/-! DEFINITION. The command table (R27), constant (R28): kind, name and ordered field names of the eight commands. -/

namespace Sys2Proof.Machine

/-- The kind of a command (R27, first column). -/
def kindOfCommand : Command → Kind
  | .noteOff => 0x8
  | .noteOn => 0x9
  | .aftertouch => 0xa
  | .controller => 0xb
  | .programChange => 0xc
  | .channelPressure => 0xd
  | .pitchBend => 0xe
  | .system => 0xf

/-- The command names, exact lower-case strings (R27). -/
def commandName : Command → String
  | .noteOff => "note-off"
  | .noteOn => "note-on"
  | .aftertouch => "aftertouch"
  | .controller => "controller"
  | .programChange => "program-change"
  | .channelPressure => "channel-pressure"
  | .pitchBend => "pitch-bend"
  | .system => "system"

/-- The field names, exact lower-case strings (R27). -/
def fieldNameText : FieldName → String
  | .key => "key"
  | .velocity => "velocity"
  | .touch => "touch"
  | .controller => "controller"
  | .value => "value"
  | .instrument => "instrument"
  | .pressure => "pressure"
  | .lsb => "lsb"
  | .msb => "msb"

/-- The ordered field list of a command (R27). -/
def fieldsOfCommand : Command → List FieldName
  | .noteOff => [.key, .velocity]
  | .noteOn => [.key, .velocity]
  | .aftertouch => [.key, .touch]
  | .controller => [.controller, .value]
  | .programChange => [.instrument]
  | .channelPressure => [.pressure]
  | .pitchBend => [.lsb, .msb]
  | .system => []

/-- `TABLE[kind]`: absent for kinds 0 to 7 (R27). -/
def tableLookup (kind : Kind) : Option Command :=
  match kind.toNat with
  | 0x8 => some .noteOff
  | 0x9 => some .noteOn
  | 0xa => some .aftertouch
  | 0xb => some .controller
  | 0xc => some .programChange
  | 0xd => some .channelPressure
  | 0xe => some .pitchBend
  | 0xf => some .system
  | _ => none

end Sys2Proof.Machine
end

