-- ==== Sys2Proof/Machine/Operands.lean ====
section
/-! DEFINITION. The operand forms: channel, kind, field values and the derived pitch-bend value (R67 to R69), and the
decoded event built from them (R105, R106). -/

namespace Sys2Proof.Machine

/-- `channel = status & 0x0F` (R67, R102). -/
def channelOf (status : Byte) : Channel := (status &&& 0x0F).setWidth 4

/-- `kind = status >> 4` (R67, R102). -/
def kindOf (status : Byte) : Kind := (status >>> 4).setWidth 4

/-- The field values of the bytes after the status byte, each taken as it is (R68); none when one of them is 128 or
more and so outside the domain (R108). -/
def fieldValues : List Byte → Option (List FieldValue)
  | [] => some []
  | b :: rest =>
    match payloadOf b, fieldValues rest with
    | some v, some vs => some (v :: vs)
    | _, _ => none

/-- `lsb | (msb << 7)`, 14 bits (R69, R106). -/
def bendValue (lsb msb : FieldValue) : BendValue := lsb.setWidth 14 ||| (msb.setWidth 14 <<< 7)

/-- The derived entry of an event: for `pitch-bend` from its two fields, none for every other command (R106). -/
def derivedValue (cmd : Command) (values : List FieldValue) : Option BendValue :=
  match cmd, values with
  | .pitchBend, [lsb, msb] => some (bendValue lsb msb)
  | _, _ => none

/-- The decoded event of a command: field names zipped with the values in order, then the derived entry (R105, R106). -/
def buildEvent (cmd : Command) (channel : Channel) (raw : RawMessage) (values : List FieldValue) : Event where
  command := cmd
  channel := channel
  raw := raw
  fields := (fieldsOfCommand cmd).zip values
  value := derivedValue cmd values

/-- The raw message of a command and its operands: `[(kind << 4) | channel, field bytes ...]` (R63, R74). -/
def commandBytes (cmd : Command) (channel : Channel) (values : List FieldValue) : RawMessage :=
  (((kindOfCommand cmd).setWidth 8 <<< 4) ||| channel.setWidth 8) :: values.map dataByteOf

end Sys2Proof.Machine
end

