-- ==== Sys2Proof/Machine/Ops.lean ====
section
/-! DEFINITION. The named operations the meanings are written over: writing the buffer, the ports and the remaining
input; the Interpreter's algorithm; emitting; raising the two conditions that stop the block; reset, the only return
from them. -/

namespace Sys2Proof.Machine

/-- `buf <- bytes` (R16, R87). -/
def State.withBuf (s : State) (bytes : List Byte) : State := { s with buf := bytes }

/-- What the ports present in this step: an emission, or nothing (R34: then every signal is 0; R170). -/
def State.withPort (s : State) (out : Option Emission) : State := { s with port := out }

/-- What the environment does next. -/
def State.withInput (s : State) (rest : List Input) : State := { s with input := rest }

/-- Taking one of the two stop conditions: the sticky flag is set (and for `StreamFatal` the cause with it); `buf` is
kept (R25, R26, R84, R85, R140). -/
def State.raise (s : State) : Stop → State
  | .streamFatal cause => { s with fatal := true, fatalCause := cause }
  | .bufferOverflow => { s with fault := true }

/-- The way back from a stop, and the only one: every piece of state takes its reset value, nothing is emitted
(R36, R143, R160). The parameters are no state (R13) and the environment goes on with what it does next. -/
def State.resetBlock (s : State) : State :=
  { State.reset with params := s.params, input := s.input }

/-- A cycle without a transfer: state as it was, nothing presented (R57). -/
def State.hold (s : State) : State := s.withPort none

/-- The Interpreter's algorithm in one piece (R109). `none` is a message outside its domain: no error rejects it and a
data position holds a byte of 128 or more (R108). -/
def interpret : RawMessage → Option Result
  | [] => some (.err .empty)
  | status :: rest =>
    match tableLookup (kindOf status) with
    | none => some (.err (.unknownCommand (kindOf status)))
    | some cmd =>
      if (fieldsOfCommand cmd).length ≠ rest.length then
        some (.err (.arityMismatch (fieldsOfCommand cmd).length rest.length))
      else
        match fieldValues rest with
        | none => none
        | some values => some (.ok (buildEvent cmd (channelOf status) (status :: rest) values))

/-- `emit(buf)` where `buf` is non-empty, nothing otherwise: the raw message goes to the Interpreter and is presented
with its result in the same step (R16, R82, R84, R118). A message outside the Interpreter's domain is refused (R108);
the Framer never builds one (R22). Only operations that run in a running block call it (R81). -/
def emit (s : State) : Host.Outcome State Fault Refusal :=
  if s.buf = [] then .next (s.withPort none)
  else
    match interpret s.buf with
    | some r => .next (s.withPort (some { raw := s.buf, result := r }))
    | none => .refused .outOfDomain

/-- `o`, then `f` on its next state; a stop of `o` stands. -/
def andThen (o : Host.Outcome State Fault Refusal) (f : State → Host.Outcome State Fault Refusal) :
    Host.Outcome State Fault Refusal :=
  match o with
  | .next s => f s
  | .fault r => .fault r
  | .refused r => .refused r

/-- Presenting a message and its result at the ports. While `fatal` or `fault` is 1 the block produces no output
(R25, R26), so nothing is presented then, whatever is asked of it. -/
def State.present (s : State) (e : Emission) : State := s.withPort (if s.stopped then none else some e)

/-- A command's effect: its decoded event is presented with its raw message. The Interpreter writes no state (R23),
so nothing else changes. -/
def presentCommand (cmd : Command) (channel : Channel) (values : List FieldValue) (s : State) : State :=
  s.present
    { raw := commandBytes cmd channel values
      result := .ok (buildEvent cmd channel (commandBytes cmd channel values) values) }

/-- The Interpreter's answer to a message that is no command: the decode error is presented with the message and
nothing is stored (R139); a message outside the domain is refused (R108), in a stopped block too (log 10). -/
def answerReject (r : MessageReject) (m : RawMessage) (s : State) : Host.Outcome State Fault Refusal :=
  match r with
  | .error e => .next (s.present { raw := m, result := .err e })
  | .highDataByte => .refused .outOfDomain

end Sys2Proof.Machine
end

