-- ==== Sys2Proof/Machine/Commands.lean ====
section
/-! DEFINITION. The eight commands of the Interpreter (R110 to R117), each presenting its decoded event. "Flags written:
none" is true of all eight. In a stopped block they present nothing (R25, R26). A wrong length never reaches a command: it is `ArityMismatch` in the decoder (R104). -/

namespace Sys2Proof.Machine

/-- `note-off`, kind 0x8 (R110). -/
def execNoteOff (c : Channel) (key velocity : FieldValue) (s : State) : Host.Outcome State Fault Refusal :=
  .next (presentCommand .noteOff c [key, velocity] s)

/-- `note-on`, kind 0x9; with velocity 0 it stays a `note-on` (R111). -/
def execNoteOn (c : Channel) (key velocity : FieldValue) (s : State) : Host.Outcome State Fault Refusal :=
  .next (presentCommand .noteOn c [key, velocity] s)

/-- `aftertouch`, kind 0xa (R112). -/
def execAftertouch (c : Channel) (key touch : FieldValue) (s : State) : Host.Outcome State Fault Refusal :=
  .next (presentCommand .aftertouch c [key, touch] s)

/-- `controller`, kind 0xb (R113). -/
def execController (c : Channel) (controller value : FieldValue) (s : State) : Host.Outcome State Fault Refusal :=
  .next (presentCommand .controller c [controller, value] s)

/-- `program-change`, kind 0xc (R114). -/
def execProgramChange (c : Channel) (instrument : FieldValue) (s : State) : Host.Outcome State Fault Refusal :=
  .next (presentCommand .programChange c [instrument] s)

/-- `channel-pressure`, kind 0xd (R115). -/
def execChannelPressure (c : Channel) (pressure : FieldValue) (s : State) : Host.Outcome State Fault Refusal :=
  .next (presentCommand .channelPressure c [pressure] s)

/-- `pitch-bend`, kind 0xe, least significant part first, with the derived `value` (R116). -/
def execPitchBend (c : Channel) (lsb msb : FieldValue) (s : State) : Host.Outcome State Fault Refusal :=
  .next (presentCommand .pitchBend c [lsb, msb] s)

/-- `system`, kind 0xf: reported only, no system function is performed (R107, R117). -/
def execSystem (c : Channel) (s : State) : Host.Outcome State Fault Refusal :=
  .next (presentCommand .system c [] s)

end Sys2Proof.Machine
end

