-- ==== Sys2Proof/Machine/Framer.lean ====
section
/-! DEFINITION. The Framer's operations STATUS (R82), DATA (R83, R85) and END (R84), enabled only when `fatal` and
`fault` are 0 (R81). -/

namespace Sys2Proof.Machine

/-- STATUS: a non-empty buffer is emitted, then `buf <- [b]` (R82). The emission's result has no effect on the Framer
(R118). -/
def execStatus (b : Byte) (s : State) : Host.Outcome State Fault Refusal :=
  if s.stopped then .fault .stopped
  else andThen (emit s) fun t => .next (t.withBuf [b])

/-- DATA: the byte is appended, nothing is emitted (R83); on a full finite buffer it is not stored and
`BufferOverflow` is raised (R85). -/
def execData (b : Byte) (s : State) : Host.Outcome State Fault Refusal :=
  if s.stopped then .fault .stopped
  else if s.bufFull then .next ((s.withPort none).raise .bufferOverflow)
  else .next ((s.withPort none).withBuf (s.buf ++ [b]))

/-- END: with `EOS_FLUSH == 1` and cause `EOS` a non-empty buffer is emitted and cleared; then `StreamFatal(cause)` is
raised, always (R84). It is no row of the opcode table: `runEvent` calls it. -/
def execEnd (cause : Cause) (s : State) : Host.Outcome State Fault Refusal :=
  if s.stopped then .fault .stopped
  else if s.params.eosFlush && decide (cause = .eos) then
    andThen (emit s) fun t => .next ((t.withBuf []).raise (.streamFatal cause))
  else .next ((s.withPort none).raise (.streamFatal cause))

end Sys2Proof.Machine
end

