-- ==== Sys2Proof/Machine/Dispatch.lean ====
section
/-! DEFINITION. One arm per operation, each a direct call of its meaning. -/

namespace Sys2Proof.Machine

def exec (i : Instr) (s : State) : Host.Outcome State Fault Refusal :=
  match i with
  | .noteOff c key velocity => Sys2Proof.Machine.execNoteOff c key velocity s
  | .noteOn c key velocity => Sys2Proof.Machine.execNoteOn c key velocity s
  | .aftertouch c key touch => Sys2Proof.Machine.execAftertouch c key touch s
  | .controller c controller value => Sys2Proof.Machine.execController c controller value s
  | .programChange c instrument => Sys2Proof.Machine.execProgramChange c instrument s
  | .channelPressure c pressure => Sys2Proof.Machine.execChannelPressure c pressure s
  | .pitchBend c lsb msb => Sys2Proof.Machine.execPitchBend c lsb msb s
  | .system c => Sys2Proof.Machine.execSystem c s
  | .status b => Sys2Proof.Machine.execStatus b s
  | .data b => Sys2Proof.Machine.execData b s

end Sys2Proof.Machine
end

