-- ==== Sys2Proof/Machine/Cycle.lean ====
section
/-! DEFINITION. What one entry of the input does: a clock cycle with its reset, handshake and input event (R32, R56,
R57, R81, R160), or a raw message given to the Interpreter directly (R100); and how a word is placed so that the next
step runs it. -/

namespace Sys2Proof.Machine

/-- The input events a cycle's signals offer, one for each of `src_valid`, `src_eos`, `src_err` that is 1 (R32). -/
def CycleIn.offered (c : CycleIn) : List InputEvent :=
  (if c.srcValid then [.byte c.srcByte] else []) ++
  (if c.srcEos then [.ended .eos] else []) ++
  (if c.srcErr then [.ended .err] else [])

/-- The Framer's dispatch on an input event (R81). -/
def runEvent (e : InputEvent) (s : State) : Host.Outcome State Fault Refusal :=
  match e with
  | .byte b => exec (decodeByte b) s
  | .ended cause => execEnd cause s

/-- One clock cycle. Reset overrides everything (R138, R160). More than one event offered is refused (R32; DEDUCED
that reset comes before this, log 9). An event is taken exactly when `src_ready` is 1 (R32, R56); a cycle without a
transfer changes nothing (R57). -/
def runCycle (c : CycleIn) (s : State) : Host.Outcome State Fault Refusal :=
  if c.rst then .next s.resetBlock
  else
    match c.offered with
    | [] => .next s.hold
    | [e] => if s.srcReady c then runEvent e s else .next s.hold
    | _ => .refused .multiHot

/-- The Interpreter used on its own (R100, R119): a message that is a command runs it, any other is answered by its
error (R71) or refused (R108). DESIGN CHOICE (log 2): its result is presented at the same ports,
and so not while the block is stopped (R25, R26). -/
def runMessage (m : RawMessage) (s : State) : Host.Outcome State Fault Refusal :=
  match decodeMessage m with
  | .ok i => exec i s
  | .error r => answerReject r m s

/-- One step: the oldest entry of the input is consumed. With none left the block waits: nothing changes and nothing
is presented (R57, R150; log 3). -/
def runNext (s : State) : Host.Outcome State Fault Refusal :=
  match s.input with
  | [] => .next s.hold
  | .cycle c :: rest => runCycle c (s.withInput rest)
  | .message m :: rest => runMessage m (s.withInput rest)

/-- A cycle with no reset in which the sink is ready and nothing is offered. -/
def idleCycle : CycleIn :=
  { rst := false, sinkReady := true, srcValid := false, srcByte := 0, srcEos := false, srcErr := false }

/-- A cycle with no reset in which the sink is ready and the byte source offers `b`. -/
def byteCycle (b : Byte) : CycleIn := { idleCycle with srcValid := true, srcByte := b }

/-- A cycle with no reset in which the sink is ready and the byte source signals its end. -/
def endCycle (cause : Cause) : CycleIn :=
  { idleCycle with srcEos := decide (cause = .eos), srcErr := decide (cause = .err) }

/-- A cycle with `rst` 1. -/
def resetCycle : CycleIn := { idleCycle with rst := true }

/-- The input entries that carry a table word's bytes: at the Framer level each byte is offered by the byte source, at
the Interpreter level the bytes are the raw message (log 6). -/
def entriesOf (bytes : List Byte) : List Input :=
  match tableLevel bytes with
  | .framer => bytes.map fun b => .cycle (byteCycle b)
  | .interpreter => [.message bytes]

/-- The word's entries before everything else the environment does. -/
def placeWord (s : State) (nbits w : Nat) : State :=
  s.withInput (entriesOf (tableBytes nbits w) ++ s.input)

end Sys2Proof.Machine
end

