-- ==== Sys2Proof/Machine/Step.lean ====
section
/-! DEFINITION. The step function, and placing a word where the next step takes it. -/

namespace Sys2Proof.Machine

/-- One step of the machine: what the environment does next, done to the block. -/
def step (s : State) : Host.Outcome State Fault Refusal := runNext s

/-- `s` with a table word placed so that the very next step runs it (log 6). -/
def State.withFetchWord (s : State) (nbits w : Nat) : State := placeWord s nbits w

end Sys2Proof.Machine
end

