-- ==== Sys2Proof/Machine/Ports.lean ====
section
/-! DEFINITION. The output signals of the block, computed from the state (R33 to R35, R136). `lenW` is the parameter
`LEN_W` (R10; log 11). -/

namespace Sys2Proof.Machine

/-- The raw-message port (R33). -/
structure RawPort (lenW : Nat) where
  msgValid : Bool
  msgLen   : BitVec lenW
  msgByte  : List Byte
deriving DecidableEq, Repr

/-- The event port (R34). -/
structure EventPort (lenW : Nat) where
  evValid      : Bool
  evStatus     : BitVec 2
  evKind       : BitVec 4
  evChannel    : BitVec 4
  evNf         : BitVec 2
  evF0         : BitVec 7
  evF1         : BitVec 7
  evValueValid : Bool
  evValue      : BitVec 14
  evExpected   : BitVec 2
  evActual     : BitVec lenW
deriving DecidableEq, Repr

/-- The level outputs `fatal`, `fatal_cause`, `fault` (R35, R136). -/
structure LevelPort where
  fatal      : BitVec 1
  fatalCause : BitVec 1
  fault      : BitVec 1
deriving DecidableEq, Repr

/-- `msg_byte[i]` for `i` below `MSG_CAP`: positions at or beyond `msg_len` are driven 0 (R33).
DESIGN CHOICE (log 12): R33 gives no positions for `MSG_CAP` unbounded, nor for a message given directly to the
Interpreter that is longer than a finite `MSG_CAP`; in both cases the list has all bytes of the message. -/
def paddedBytes (cap : Option Nat) (raw : RawMessage) : List Byte :=
  match cap with
  | none => raw
  | some n => raw ++ List.replicate (n - raw.length) 0

/-- The raw-message port of an emission, or of none (R33). -/
def rawPort (lenW : Nat) (cap : Option Nat) : Option Emission → RawPort lenW
  | none => { msgValid := false, msgLen := 0, msgByte := paddedBytes cap [] }
  | some e => { msgValid := true, msgLen := BitVec.ofNat lenW e.raw.length, msgByte := paddedBytes cap e.raw }

/-- The event port with every signal 0 (R34: `ev_valid == 0`). -/
def EventPort.zero (lenW : Nat) : EventPort lenW :=
  { evValid := false, evStatus := 0, evKind := 0, evChannel := 0, evNf := 0, evF0 := 0, evF1 := 0
    evValueValid := false, evValue := 0, evExpected := 0, evActual := 0 }

/-- The value of field `i` of an event, 0 where there is none (R34, `ev_f0` and `ev_f1`). -/
def fieldSignal (e : Event) (i : Nat) : FieldValue :=
  match e.fields[i]? with
  | some f => f.2
  | none => 0

/-- The event port of a result (R34; codes of `ev_status` in R136). -/
def resultPort (lenW : Nat) : Result → EventPort lenW
  | .ok e =>
    { EventPort.zero lenW with
      evValid := true
      evStatus := 0
      evKind := kindOfCommand e.command
      evChannel := e.channel
      evNf := BitVec.ofNat 2 e.fields.length
      evF0 := fieldSignal e 0
      evF1 := fieldSignal e 1
      evValueValid := e.value.isSome
      evValue := e.value.getD 0 }
  | .err .empty => { EventPort.zero lenW with evValid := true, evStatus := 1 }
  | .err (.unknownCommand kind) => { EventPort.zero lenW with evValid := true, evStatus := 2, evKind := kind }
  | .err (.arityMismatch expected actual) =>
    { EventPort.zero lenW with
      evValid := true
      evStatus := 3
      evExpected := BitVec.ofNat 2 expected
      evActual := BitVec.ofNat lenW actual }

/-- The event port of an emission, or of none (R34). -/
def eventPort (lenW : Nat) : Option Emission → EventPort lenW
  | none => EventPort.zero lenW
  | some e => resultPort lenW e.result

/-- The level outputs of a state (R25, R26, R35). -/
def levelPort (s : State) : LevelPort where
  fatal := BitVec.ofBool s.fatal
  fatalCause := s.fatalCause.code
  fault := BitVec.ofBool s.fault

end Sys2Proof.Machine
end

