-- ==== Sys2Proof/Safety.lean ====
section
/-! DEFINITION. What claims are stated in: the shapes of the buffer (R22), the invariant of the machine, runs and what
is observed of them (R172), and the functions the spec gives for stating claims (R52, R90). -/

namespace Sys2Proof.Machine

/-- The three shapes of the buffer (R22). -/
inductive Shape where
  | empty
  | garbage
  | message
deriving DecidableEq, Repr

/-- The shape of a buffer; none where an element after the first is a status byte, which R22 says never happens. -/
def shapeOf : List Byte → Option Shape
  | [] => some .empty
  | b :: rest =>
    if rest.all (fun d => !isStatusByte d) then
      if isStatusByte b then some .message else some .garbage
    else none

/-- The shape after a data byte is appended (R86). -/
def Shape.afterData : Shape → Shape
  | .empty => .garbage
  | .garbage => .garbage
  | .message => .message

/-- What holds of every state the machine can be in. -/
structure State.Inv (s : State) : Prop where
  /-- R8. -/
  params_wf : s.params.wf = true
  /-- R22: the buffer is in one of the three shapes. -/
  buf_shape : (shapeOf s.buf).isSome = true
  /-- R21: the buffer is no longer than `MSG_CAP`. -/
  buf_fits : ∀ n, s.params.msgCap = some n → s.buf.length ≤ n
  /-- R26, R85: `fault` is set only with a full finite buffer, so never when `MSG_CAP` is unbounded. -/
  fault_full : s.fault = true → s.params.msgCap = some s.buf.length
  /-- R91: a stopped block takes no step, so the two stop flags are never both set. -/
  one_stop : ¬ (s.fatal = true ∧ s.fault = true)
  /-- R25, R36: `fatal_cause` is written together with `fatal` and otherwise has its reset value. -/
  cause_reset : s.fatal = false → s.fatalCause = .eos
  /-- R34, R118: what the ports present is a raw message with the Interpreter's result for it. -/
  port_answers : ∀ e, s.port = some e → interpret e.raw = some e.result

/-- `k` steps and what the sink saw in them: the (raw message, result) pairs presented, in order, and the state
reached (R172). -/
def observe : Nat → State → Host.Outcome (List Emission × State) Fault Refusal
  | 0, s => .next ([], s)
  | k + 1, s =>
    match step s with
    | .next t =>
      match observe k t with
      | .next (es, u) => .next (t.port.toList ++ es, u)
      | .fault r => .fault r
      | .refused r => .refused r
    | .fault r => .fault r
    | .refused r => .refused r

/-- A run over a list of inputs from `s`: as many steps as there are inputs (R172). -/
def observeInputs (s : State) (inputs : List Input) : Host.Outcome (List Emission × State) Fault Refusal :=
  observe inputs.length (s.withInput inputs)

/-- The run in which the byte source offers these bytes, one a cycle, to a ready sink. -/
def observeBytes (s : State) (bytes : List Byte) : Host.Outcome (List Emission × State) Fault Refusal :=
  observeInputs s (bytes.map fun b => .cycle (byteCycle b))

/-- What is observed of a run: the pairs presented, in order, and the final flags; the final `buf` is state and no
part of it (R172). -/
structure Observation where
  outputs    : List Emission
  fatal      : Bool
  fatalCause : Cause
  fault      : Bool
deriving DecidableEq, Repr

/-- How a run stands after its last event (R172). -/
inductive RunStatus where
  /-- A prefix: the block is waiting, not finished, and every extension of the input is possible. -/
  | waiting
  /-- The byte source has ended. -/
  | ended (cause : Cause)
  /-- `fault` is 1: a fault, not an end. -/
  | faulted
deriving DecidableEq, Repr

/-- The observation of what a run presented and the state it reached. -/
def observationOf (outputs : List Emission) (t : State) : Observation where
  outputs := outputs
  fatal := t.fatal
  fatalCause := t.fatalCause
  fault := t.fault

/-- How the run observed stands: a fault whenever `fault` is 1 (R26, R85), an end only after an `End` (R172). -/
def Observation.status (o : Observation) : RunStatus :=
  if o.fault then .faulted else if o.fatal then .ended o.fatalCause else .waiting

/-- A run ends safely when it has ended: neither a fault (R26, R85) nor a prefix that is still waiting is an end
(R172). -/
def endsSafely : Host.Outcome (List Emission × State) Fault Refusal → Bool
  | .next (es, t) =>
    match (observationOf es t).status with
    | .waiting => false
    | .ended _ => true
    | .faulted => false
  | .fault _ => false
  | .refused _ => false

/-- Only the last event of a run may be an `End` (R172). -/
def onlyLastEnds : List InputEvent → Bool
  | [] => true
  | [_] => true
  | .byte _ :: e :: rest => onlyLastEnds (e :: rest)
  | .ended _ :: _ :: _ => false

/-- The clock cycle in which the byte source offers this event to a ready sink. -/
def eventCycle : InputEvent → CycleIn
  | .byte b => byteCycle b
  | .ended cause => endCycle cause

/-- A run: admissible parameters (R8) and a finite list of input events, of which only the last may be an `End`,
following the reset state (R172). -/
structure Run where
  params    : Params
  events    : List InputEvent
  params_wf : params.wf = true
  end_last  : onlyLastEnds events = true
deriving DecidableEq, Repr

/-- The observation of a run from the reset state, every event offered to a ready sink (R172). -/
def Run.observe (r : Run) : Host.Outcome Observation Fault Refusal :=
  match observeInputs { State.reset with params := r.params } (r.events.map fun e => .cycle (eventCycle e)) with
  | .next (es, t) => .next (observationOf es t)
  | .fault f => .fault f
  | .refused f => .refused f

/-- One byte of `frame_prefix` (R90). -/
def frameByte (acc : List RawMessage × List Byte) (b : Byte) : List RawMessage × List Byte :=
  if b.toNat ≤ 127 then (acc.1, acc.2 ++ [b])
  else if acc.2 = [] then (acc.1, [b])
  else (acc.1 ++ [acc.2], [b])

/-- `frame_prefix(bs) = (out, rest)` (R90). -/
def framePrefix (bytes : List Byte) : List RawMessage × List Byte := bytes.foldl frameByte ([], [])

/-- The number of outputs presented after these bytes, from an empty buffer (R52). -/
def closedCount (bytes : List Byte) : Nat :=
  match bytes with
  | [] => 0
  | b :: _ => bytes.countP isStatusByte - (if isStatusByte b then 1 else 0)

/-- A cycle in which no input event can be transferred although none is refused: nothing is offered, or one event is
offered and the sink is not ready (R32, R56, R57). -/
def waitingCycle : Input → Bool
  | .cycle c => !c.rst && (c.offered.isEmpty || (decide (c.offered.length = 1) && !c.sinkReady))
  | .message _ => false

/-- Every byte of a message after the first is a data byte, which puts its success path in the domain (R108). -/
def dataAfterFirst (m : RawMessage) : Bool := m.tail.all fun b => !isStatusByte b

/-- The word of a byte sequence as the opcode table numbers it, byte 0 the most significant. -/
def tableWordOf (bytes : List Byte) : Nat := bytes.foldl (fun w b => w * 256 + b.toNat) 0

end Sys2Proof.Machine
end

