-- ==== Sys2Proof/Certificates/Slice0/Obligations.lean ====
section
/-! DEFINITION. The statements for the provers. A state is "running" when `fatal` and `fault` are 0. -/

open Sys2Proof Sys2Proof.Machine

/-! ## Encoding -/

/-- A decoder that drops or misplaces an operand bit makes this false (R61 to R63, R67, R68, R70). -/
def Obligations.DecodeOfEncode : Prop :=
  ∀ i : Instr, i.wellFormed = true → decode i.level (encode i) = .ok i

/-- No two byte sequences of a level stand for one operation, and the decoder answers only well-formed operations of
the level it was asked for (R60, R63, R70). -/
def Obligations.EncodeOfDecode : Prop :=
  ∀ (l : Level) (bytes : List Byte) (i : Instr), decode l bytes = .ok i →
    encode i = bytes ∧ i.level = l ∧ i.wellFormed = true

/-- The table's numbering (byte 0 most significant) gives every operation back from its own word, but for a STATUS byte
0xF0 to 0xFF, whose word is also a word of `system` (the model's choice, log 6). -/
def Obligations.TableWordOfEncode : Prop :=
  ∀ i : Instr, i.wellFormed = true →
    decodeTableWord (8 * (encode i).length) (tableWordOf (encode i)) =
      match i with
      | .status b => some (if 0xF0 ≤ b.toNat then .system (b.extractLsb' 0 4) else .status b)
      | _ => some i

/-- Words of the spec's own examples (95_test_vectors.md V1, V2, V5, V7, V8, V50, V51). -/
def Obligations.SampleWordsDecode : Prop :=
  decode .interpreter [0x80, 60, 0] = .ok (.noteOff 0 60 0) ∧
  decode .interpreter [0x91, 72, 100] = .ok (.noteOn 1 72 100) ∧
  decode .interpreter [0xC2, 5] = .ok (.programChange 2 5) ∧
  decode .interpreter [0xE3, 0, 64] = .ok (.pitchBend 3 0 64) ∧
  decode .interpreter [0xFA] = .ok (.system 10) ∧
  decode .framer [0x90] = .ok (.status 0x90) ∧
  decode .framer [0x3C] = .ok (.data 0x3C)

/-- The command table of R27: kinds, names, ordered field names; absent for kinds 0 to 7. -/
def Obligations.CommandTableRows : Prop :=
  (∀ kind : Kind, tableLookup kind = none ↔ kind.toNat ≤ 7) ∧
  (∀ (kind : Kind) (cmd : Command), tableLookup kind = some cmd ↔ kindOfCommand cmd = kind) ∧
  [Command.noteOff, .noteOn, .aftertouch, .controller, .programChange, .channelPressure, .pitchBend, .system].map
      (fun cmd => ((kindOfCommand cmd).toNat, commandName cmd, (fieldsOfCommand cmd).map fieldNameText)) =
    [(8, "note-off", ["key", "velocity"]), (9, "note-on", ["key", "velocity"]), (10, "aftertouch", ["key", "touch"]),
     (11, "controller", ["controller", "value"]), (12, "program-change", ["instrument"]),
     (13, "channel-pressure", ["pressure"]), (14, "pitch-bend", ["lsb", "msb"]), (15, "system", [])]

/-! ## A step runs the decoded operation -/

/-- R60: the class of an input byte, by value or by bit 7, selects the Framer operation, which runs on the state
whose input has moved past the cycle. -/
def Obligations.ByteClassSelectsOperation : Prop :=
  ∀ (s : State) (b : Byte) (rest : List Input), s.stopped = false →
    step (s.withInput (.cycle (byteCycle b) :: rest)) =
      exec (if b.getLsbD 7 then .status b else .data b) (s.withInput rest) ∧
    (b.getLsbD 7 = true ↔ 128 ≤ b.toNat)

/-- A raw message given to the Interpreter that decodes to a command runs that command, on the state whose input has
moved past it (log 2). -/
def Obligations.MessageRunsItsCommand : Prop :=
  ∀ (s : State) (m : RawMessage) (i : Instr) (rest : List Input), decode .interpreter m = .ok i →
    step (s.withInput (.message m :: rest)) = exec i (s.withInput rest)

/-- A placed table word is run by the very next step, and nothing else is changed by placing it (log 6). -/
def Obligations.PlacedWordRunsNext : Prop :=
  ∀ (s : State) (nbits w : Nat) (i : Instr), decodeTableWord nbits w = some i → s.stopped = false →
    step (s.withFetchWord nbits w) = exec i s

/-- R81: in a running block whose sink is ready a Framer step takes the one event offered and dispatches on it; in a
stopped block it takes none. The dispatch reads the event alone, and what the operation does depends on the event and
on `buf` alone: two running blocks of the same parameters with the same `buf` do the same. -/
def Obligations.FramerDispatch : Prop :=
  ∀ (s : State) (c : CycleIn) (e : InputEvent) (rest : List Input),
    c.rst = false → c.sinkReady = true → c.offered = [e] →
    (step (s.withInput (.cycle c :: rest)) =
      if s.stopped then .next { s with port := none, input := rest }
      else
        match e with
        | .byte b => if 128 ≤ b.toNat then execStatus b (s.withInput rest) else execData b (s.withInput rest)
        | .ended cause => execEnd cause (s.withInput rest)) ∧
    (∀ s' t : State, s.stopped = false → s'.stopped = false → s'.params = s.params → s'.buf = s.buf →
      step (s.withInput (.cycle c :: rest)) = .next t → ∃ t', step (s'.withInput (.cycle c :: rest)) = .next t' ∧
        t'.buf = t.buf ∧ t'.port = t.port ∧ t'.fatal = t.fatal ∧ t'.fault = t.fault ∧
        (t.fatal = true → t'.fatalCause = t.fatalCause))

/-! ## The eight commands: the event presented in a running block, everything else unchanged, and the answer at every
other length. `Obligations.StoppedBlockPresentsNothing` says what they do in a stopped block. -/

/-- R110. -/
def Obligations.NoteOffPresentsKeyAndVelocity : Prop :=
  (∀ (c : Channel) (key velocity : FieldValue) (s : State), s.stopped = false →
    exec (.noteOff c key velocity) s = .next { s with
      port := some {
        raw := [0x80 ||| c.setWidth 8, key.setWidth 8, velocity.setWidth 8]
        result := .ok {
          command := .noteOff, channel := c, raw := [0x80 ||| c.setWidth 8, key.setWidth 8, velocity.setWidth 8]
          fields := [(.key, key), (.velocity, velocity)], value := none } } } ∧
    decode .interpreter [0x80 ||| c.setWidth 8, key.setWidth 8, velocity.setWidth 8] = .ok (.noteOff c key velocity)) ∧
  (∀ (status : Byte) (m : List Byte), status.toNat / 16 = 8 → m.length ≠ 2 →
    interpret (status :: m) = some (.err (.arityMismatch 2 m.length)))

/-- R111; velocity 0 is no exception. -/
def Obligations.NoteOnPresentsKeyAndVelocity : Prop :=
  (∀ (c : Channel) (key velocity : FieldValue) (s : State), s.stopped = false →
    exec (.noteOn c key velocity) s = .next { s with
      port := some {
        raw := [0x90 ||| c.setWidth 8, key.setWidth 8, velocity.setWidth 8]
        result := .ok {
          command := .noteOn, channel := c, raw := [0x90 ||| c.setWidth 8, key.setWidth 8, velocity.setWidth 8]
          fields := [(.key, key), (.velocity, velocity)], value := none } } } ∧
    decode .interpreter [0x90 ||| c.setWidth 8, key.setWidth 8, velocity.setWidth 8] = .ok (.noteOn c key velocity)) ∧
  (∀ (status : Byte) (m : List Byte), status.toNat / 16 = 9 → m.length ≠ 2 →
    interpret (status :: m) = some (.err (.arityMismatch 2 m.length)))

/-- R112. -/
def Obligations.AftertouchPresentsKeyAndTouch : Prop :=
  (∀ (c : Channel) (key touch : FieldValue) (s : State), s.stopped = false →
    exec (.aftertouch c key touch) s = .next { s with
      port := some {
        raw := [0xA0 ||| c.setWidth 8, key.setWidth 8, touch.setWidth 8]
        result := .ok {
          command := .aftertouch, channel := c, raw := [0xA0 ||| c.setWidth 8, key.setWidth 8, touch.setWidth 8]
          fields := [(.key, key), (.touch, touch)], value := none } } } ∧
    decode .interpreter [0xA0 ||| c.setWidth 8, key.setWidth 8, touch.setWidth 8] = .ok (.aftertouch c key touch)) ∧
  (∀ (status : Byte) (m : List Byte), status.toNat / 16 = 10 → m.length ≠ 2 →
    interpret (status :: m) = some (.err (.arityMismatch 2 m.length)))

/-- R113; the field `value` is no derived entry. -/
def Obligations.ControllerPresentsNumberAndValue : Prop :=
  (∀ (c : Channel) (controller value : FieldValue) (s : State), s.stopped = false →
    exec (.controller c controller value) s = .next { s with
      port := some {
        raw := [0xB0 ||| c.setWidth 8, controller.setWidth 8, value.setWidth 8]
        result := .ok {
          command := .controller, channel := c
          raw := [0xB0 ||| c.setWidth 8, controller.setWidth 8, value.setWidth 8]
          fields := [(.controller, controller), (.value, value)], value := none } } } ∧
    decode .interpreter [0xB0 ||| c.setWidth 8, controller.setWidth 8, value.setWidth 8] =
      .ok (.controller c controller value)) ∧
  (∀ (status : Byte) (m : List Byte), status.toNat / 16 = 11 → m.length ≠ 2 →
    interpret (status :: m) = some (.err (.arityMismatch 2 m.length)))

/-- R114. -/
def Obligations.ProgramChangePresentsInstrument : Prop :=
  (∀ (c : Channel) (instrument : FieldValue) (s : State), s.stopped = false →
    exec (.programChange c instrument) s = .next { s with
      port := some {
        raw := [0xC0 ||| c.setWidth 8, instrument.setWidth 8]
        result := .ok {
          command := .programChange, channel := c, raw := [0xC0 ||| c.setWidth 8, instrument.setWidth 8]
          fields := [(.instrument, instrument)], value := none } } } ∧
    decode .interpreter [0xC0 ||| c.setWidth 8, instrument.setWidth 8] = .ok (.programChange c instrument)) ∧
  (∀ (status : Byte) (m : List Byte), status.toNat / 16 = 12 → m.length ≠ 1 →
    interpret (status :: m) = some (.err (.arityMismatch 1 m.length)))

/-- R115. -/
def Obligations.ChannelPressurePresentsPressure : Prop :=
  (∀ (c : Channel) (pressure : FieldValue) (s : State), s.stopped = false →
    exec (.channelPressure c pressure) s = .next { s with
      port := some {
        raw := [0xD0 ||| c.setWidth 8, pressure.setWidth 8]
        result := .ok {
          command := .channelPressure, channel := c, raw := [0xD0 ||| c.setWidth 8, pressure.setWidth 8]
          fields := [(.pressure, pressure)], value := none } } } ∧
    decode .interpreter [0xD0 ||| c.setWidth 8, pressure.setWidth 8] = .ok (.channelPressure c pressure)) ∧
  (∀ (status : Byte) (m : List Byte), status.toNat / 16 = 13 → m.length ≠ 1 →
    interpret (status :: m) = some (.err (.arityMismatch 1 m.length)))

/-- R116: `lsb` and `msb` stay in the event beside the 14-bit `value`, which is that of exactly one pair. -/
def Obligations.PitchBendPresentsDerivedValue : Prop :=
  (∀ (c : Channel) (lsb msb : FieldValue) (s : State), s.stopped = false →
    exec (.pitchBend c lsb msb) s = .next { s with
      port := some {
        raw := [0xE0 ||| c.setWidth 8, lsb.setWidth 8, msb.setWidth 8]
        result := .ok {
          command := .pitchBend, channel := c, raw := [0xE0 ||| c.setWidth 8, lsb.setWidth 8, msb.setWidth 8]
          fields := [(.lsb, lsb), (.msb, msb)]
          value := some (BitVec.ofNat 14 (lsb.toNat + 128 * msb.toNat)) } } } ∧
    decode .interpreter [0xE0 ||| c.setWidth 8, lsb.setWidth 8, msb.setWidth 8] = .ok (.pitchBend c lsb msb)) ∧
  (∀ (status : Byte) (m : List Byte), status.toNat / 16 = 14 → m.length ≠ 2 →
    interpret (status :: m) = some (.err (.arityMismatch 2 m.length))) ∧
  (∀ v : BendValue, ∃ lsb msb : FieldValue, BitVec.ofNat 14 (lsb.toNat + 128 * msb.toNat) = v ∧
    ∀ lsb' msb' : FieldValue, BitVec.ofNat 14 (lsb'.toNat + 128 * msb'.toNat) = v → lsb' = lsb ∧ msb' = msb)

/-- R117: all sixteen status values alike; with any data byte it is an arity error. -/
def Obligations.SystemPresentsChannelOnly : Prop :=
  (∀ (c : Channel) (s : State), s.stopped = false →
    exec (.system c) s = .next { s with
      port := some {
        raw := [0xF0 ||| c.setWidth 8]
        result := .ok {
          command := .system, channel := c, raw := [0xF0 ||| c.setWidth 8], fields := [], value := none } } } ∧
    decode .interpreter [0xF0 ||| c.setWidth 8] = .ok (.system c)) ∧
  (∀ (status : Byte) (m : List Byte), status.toNat / 16 = 15 → m.length ≠ 0 →
    interpret (status :: m) = some (.err (.arityMismatch 0 m.length)))

/-! ## The Interpreter as a whole -/

/-- The decoder together with the eight meanings is the algorithm R109 on every byte sequence: the table-driven
`interpret` and the per-command meanings, written apart, give the same answers. A stopped block presents none of them
(R25, R26). That a message can be given directly is the model's choice (log 2), and so is that one outside the domain is
refused in a stopped block too (log 10). -/
def Obligations.MessageAnsweredByAlgorithm : Prop :=
  ∀ (s : State) (m : RawMessage) (rest : List Input),
    step (s.withInput (.message m :: rest)) =
      match interpret m with
      | some r => .next { s with port := if s.stopped then none else some { raw := m, result := r }, input := rest }
      | none => .refused .outOfDomain

/-- R108: a message given to the Interpreter is refused exactly when no error rejects it and a data position holds a
byte of 128 or more; the three errors are defined for every byte sequence. That
a message can be given directly (log 2) and that a stopped block refuses it too (log 10) are the model's choices. -/
def Obligations.DomainOfTheInterpreter : Prop :=
  ∀ (s : State) (m : RawMessage) (rest : List Input),
    (∃ why, step (s.withInput (.message m :: rest)) = .refused why) ↔
      ∃ status data cmd, m = status :: data ∧ (kindOfCommand cmd).toNat = status.toNat / 16 ∧
        data.length = (fieldsOfCommand cmd).length ∧ ∃ b ∈ data, 128 ≤ b.toNat

/-- R123: the result as a function of the first byte and the length, row by row. The error rows hold whatever the later
bytes are; the rows that succeed, of messages whose later bytes are data bytes (R108). -/
def Obligations.ResultByFirstByteAndLength : Prop :=
  interpret [] = some (.err .empty) ∧
  ∀ (b : Byte) (rest : List Byte),
    (b.toNat ≤ 0x7F → interpret (b :: rest) = some (.err (.unknownCommand (BitVec.ofNat 4 (b.toNat / 16))))) ∧
    ((0x80 ≤ b.toNat ∧ b.toNat ≤ 0xBF ∨ 0xE0 ≤ b.toNat ∧ b.toNat ≤ 0xEF) →
      (rest.length = 2 → dataAfterFirst (b :: rest) = true →
        ∃ e, interpret (b :: rest) = some (.ok e) ∧ e.fields.length = 2 ∧
          (e.value.isSome = true ↔ 0xE0 ≤ b.toNat)) ∧
      (rest.length ≠ 2 → interpret (b :: rest) = some (.err (.arityMismatch 2 rest.length)))) ∧
    ((0xC0 ≤ b.toNat ∧ b.toNat ≤ 0xDF) →
      (rest.length = 1 → dataAfterFirst (b :: rest) = true →
        ∃ e, interpret (b :: rest) = some (.ok e) ∧ e.fields.length = 1 ∧ e.value = none) ∧
      (rest.length ≠ 1 → interpret (b :: rest) = some (.err (.arityMismatch 1 rest.length)))) ∧
    (0xF0 ≤ b.toNat →
      (rest = [] → ∃ e, interpret (b :: rest) = some (.ok e) ∧ e.fields = [] ∧ e.value = none) ∧
      (rest ≠ [] → interpret (b :: rest) = some (.err (.arityMismatch 0 rest.length))))

/-- R101, R103: `Empty` exactly for the empty message, `UnknownCommand` exactly when the first byte is a data byte, with
that byte's high nibble, at every length and whatever the later bytes are. -/
def Obligations.EmptyAndUnknownAnswered : Prop :=
  (∀ m : RawMessage, interpret m = some (.err .empty) ↔ m = []) ∧
  ∀ (b : Byte) (m : List Byte),
    (b.toNat ≤ 127 → interpret (b :: m) = some (.err (.unknownCommand (BitVec.ofNat 4 (b.toNat / 16))))) ∧
    (128 ≤ b.toNat → ∀ kind, interpret (b :: m) ≠ some (.err (.unknownCommand kind)))

/-- R23, R55: what the Interpreter answers depends on the message alone, and answering changes nothing but the ports.
Whether the block is stopped decides only whether the answer is presented. -/
def Obligations.InterpreterIsStateless : Prop :=
  ∀ (s s' t : State) (m : RawMessage) (rest rest' : List Input), s'.stopped = s.stopped →
    step (s.withInput (.message m :: rest)) = .next t →
      step (s'.withInput (.message m :: rest')) = .next { s' with port := t.port, input := rest' } ∧
      t = { s with port := t.port, input := rest }

/-- R122: an error is decided by the first byte and the length, a decoded event's operands by the bytes at indices 0,
1 and 2; no other index influences a result. -/
def Obligations.ReadsOnlyFirstThreeBytes : Prop :=
  ∀ m m' : RawMessage, m.length = m'.length →
    (m[0]? = m'[0]? → ∀ x, interpret m = some (.err x) ↔ interpret m' = some (.err x)) ∧
    (m[0]? = m'[0]? → m[1]? = m'[1]? → m[2]? = m'[2]? → ∀ e, interpret m = some (.ok e) →
      interpret m' = some (.ok { e with raw := m' }))

/-- R69, R106, R116, R120: the derived value loses no bit, equals `lsb + 128 * msb`, and every 14-bit value is that of
exactly one pair. -/
def Obligations.BendValueIsABijection : Prop :=
  (∀ lsb msb : FieldValue, (bendValue lsb msb).toNat = lsb.toNat + 128 * msb.toNat) ∧
  (∀ v : BendValue, ∃ lsb msb, bendValue lsb msb = v ∧
    ∀ lsb' msb', bendValue lsb' msb' = v → lsb' = lsb ∧ msb' = msb)

/-- R118: closing a buffer that holds a command's bytes presents what the command itself presents, and the Framer goes
on as it would with any other result. -/
def Obligations.ClosedCommandIsPresented : Prop :=
  ∀ (i : Instr) (s : State) (b : Byte), i.level = .interpreter → s.stopped = false → s.buf = encode i →
    ∃ t, exec i s = .next t ∧ t.port.isSome = true ∧ exec (.status b) s = .next { t with buf := [b] }

/-! ## The Framer -/

/-- R82: from every buffer the Framer can hold, STATUS completes; it presents a non-empty buffer with its result and
leaves the new byte alone in the buffer. -/
def Obligations.StatusClosesTheMessage : Prop :=
  ∀ (b : Byte) (s : State), 128 ≤ b.toNat → s.stopped = false → (shapeOf s.buf).isSome = true →
    (s.buf = [] → exec (.status b) s = .next { s with buf := [b], port := none }) ∧
    (s.buf ≠ [] → ∃ r, interpret s.buf = some r ∧
      exec (.status b) s = .next { s with buf := [b], port := some { raw := s.buf, result := r } })

/-- The stops of STATUS: in a stopped state (R81, R91), and on a buffer outside the Interpreter's domain (R108), which
is none of the Framer's three shapes (R22). -/
def Obligations.StatusStops : Prop :=
  ∀ (b : Byte) (s : State),
    (s.stopped = true → exec (.status b) s = .fault .stopped) ∧
    (s.stopped = false → s.buf ≠ [] → interpret s.buf = none →
      exec (.status b) s = .refused .outOfDomain ∧ shapeOf s.buf = none)

/-- R83, R85: DATA appends and presents nothing; on a full finite buffer the byte is not stored and `fault` is set,
and a run that stands there has not ended safely. -/
def Obligations.DataAppendsOrOverflows : Prop :=
  ∀ (b : Byte) (s : State), b.toNat ≤ 127 → s.stopped = false →
    (s.params.msgCap ≠ some s.buf.length →
      exec (.data b) s = .next { s with buf := s.buf ++ [b], port := none }) ∧
    (s.params.msgCap = some s.buf.length →
      exec (.data b) s = .next { s with fault := true, port := none } ∧
      ∀ es, (observationOf es { s with fault := true, port := none }).status = .faulted ∧
        endsSafely (.next (es, { s with fault := true, port := none })) = false)

/-- R84: END in a running block, each of its cases: the flush of a non-empty buffer at `EOS` with `EOS_FLUSH` 1, and
`StreamFatal(cause)` always. -/
def Obligations.EndOfStreamIsFatal : Prop :=
  ∀ (s : State) (cause : Cause) (rest : List Input), s.stopped = false → (shapeOf s.buf).isSome = true →
    (s.params.eosFlush = true → cause = .eos → s.buf ≠ [] → ∃ r, interpret s.buf = some r ∧
      step (s.withInput (.cycle (endCycle cause) :: rest)) = .next { s with
        buf := [], fatal := true, fatalCause := .eos
        port := some { raw := s.buf, result := r }, input := rest }) ∧
    (¬ (s.params.eosFlush = true ∧ cause = .eos ∧ s.buf ≠ []) →
      step (s.withInput (.cycle (endCycle cause) :: rest)) = .next { s with
        fatal := true, fatalCause := cause, port := none, input := rest })

/-- R86: the Framer's three states and their transitions, under a byte and under the end of the stream. A step that
overflows a finite buffer is R85's, not this one's. -/
def Obligations.FramerTransitions : Prop :=
  ∀ (s t : State) (rest : List Input) (shape : Shape), s.stopped = false → shapeOf s.buf = some shape →
    (∀ b : Byte, step (s.withInput (.cycle (byteCycle b) :: rest)) = .next t → t.fault = false →
      (b.toNat ≤ 127 → t.port = none ∧ shapeOf t.buf = some shape.afterData) ∧
      (128 ≤ b.toNat → shapeOf t.buf = some .message ∧
        t.port.map Emission.raw = if shape = .empty then none else some s.buf)) ∧
    (∀ cause : Cause, step (s.withInput (.cycle (endCycle cause) :: rest)) = .next t →
      t.fatal = true ∧
      t.port.map Emission.raw =
        if s.params.eosFlush = true ∧ cause = .eos ∧ shape ≠ .empty then some s.buf else none)

/-- R91: in a stopped state `src_ready` is 0, a cycle without reset consumes no event, presents nothing and leaves the
buffer and the flags, and the Framer's operations have no step. That this is a step that waits beside a fault of the
operations is the model's reading (log 7). -/
def Obligations.StoppedUntilReset : Prop :=
  ∀ (s : State) (c : CycleIn) (b : Byte) (cause : Cause) (rest : List Input), s.stopped = true → c.rst = false →
    c.offered.length ≤ 1 →
    s.srcReady c = false ∧
    step (s.withInput (.cycle c :: rest)) = .next { s with port := none, input := rest } ∧
    exec (.status b) s = .fault .stopped ∧ exec (.data b) s = .fault .stopped ∧ execEnd cause s = .fault .stopped

/-- R53: in a clock cycle the only events that make buffered bytes visible are a status byte and, with `EOS_FLUSH` 1,
the end of the stream; and what is presented is then the whole buffer. -/
def Obligations.OnlyClosingPresents : Prop :=
  ∀ (s t : State) (c : CycleIn) (rest : List Input) (e : Emission),
    step (s.withInput (.cycle c :: rest)) = .next t → t.port = some e →
      s.stopped = false ∧ e.raw = s.buf ∧ s.buf ≠ [] ∧ interpret s.buf = some e.result ∧
      ((∃ b, c.offered = [.byte b] ∧ 128 ≤ b.toNat ∧ t.buf = [b]) ∨
       (c.offered = [.ended .eos] ∧ s.params.eosFlush = true ∧ t.buf = [] ∧ t.fatal = true))

/-! ## Cycles: handshake and reset -/

/-- R56: `src_ready` is 1 exactly under its four conditions, in every cycle, whatever it offers; and an event is taken
exactly then: otherwise the cycle leaves everything and presents nothing. -/
def Obligations.EventTakenExactlyWhenReady : Prop :=
  ∀ (s : State) (c : CycleIn),
    (s.srcReady c = true ↔ s.fatal = false ∧ s.fault = false ∧ c.rst = false ∧ c.sinkReady = true) ∧
    (∀ (e : InputEvent) (rest : List Input), c.offered = [e] → c.rst = false → step (s.withInput (.cycle c :: rest)) =
      if s.srcReady c then runEvent e (s.withInput rest) else .next { s with port := none, input := rest })

/-- R57: a cycle without a transfer changes nothing and presents nothing. -/
def Obligations.WaitingChangesNothing : Prop :=
  ∀ (s : State) (c : CycleIn) (rest : List Input), c.rst = false →
    (c.srcValid = false ∧ c.srcEos = false ∧ c.srcErr = false ∨ c.offered.length = 1 ∧ s.srcReady c = false) →
      step (s.withInput (.cycle c :: rest)) = .next { s with port := none, input := rest }

/-- R32: without reset, a cycle is refused as multi-hot exactly when more than one of `src_valid`, `src_eos`, `src_err`
is 1. That such a cycle with reset is a reset and not a refusal is the model's choice (log 9). -/
def Obligations.MultiHotCycleRefused : Prop :=
  ∀ (s : State) (c : CycleIn) (rest : List Input),
    (c.rst = false →
      (step (s.withInput (.cycle c :: rest)) = .refused .multiHot ↔
        (c.srcValid = true ∧ c.srcEos = true ∨ c.srcValid = true ∧ c.srcErr = true ∨
          c.srcEos = true ∧ c.srcErr = true))) ∧
    (c.rst = true → step (s.withInput (.cycle c :: rest)) = .next (s.withInput rest).resetBlock)

/-- R160: a cycle with `rst` 1 takes no event, presents nothing and gives every piece of state its reset value, from
every state, the stopped ones included, so nothing that came before has any influence (R161); and nothing else leaves
a stopped state. -/
def Obligations.ResetCycleRestoresReset : Prop :=
  (∀ (s : State) (c : CycleIn) (rest : List Input), c.rst = true → c.offered.length ≤ 1 →
    s.srcReady c = false ∧
    step (s.withInput (.cycle c :: rest)) =
      .next { params := s.params, buf := [], fatal := false, fatalCause := .eos, fault := false, port := none,
              input := rest }) ∧
  (∀ s t : State, step s = .next t → s.stopped = true → t.stopped = false →
    ∃ c, s.input.head? = some (.cycle c) ∧ c.rst = true)

/-- R36: the state after reset, and the output signals it shows, all 0 but `src_ready`, which follows R56. -/
def Obligations.ResetState : Prop :=
  State.reset.buf = [] ∧ levelPort State.reset = { fatal := 0, fatalCause := 0, fault := 0 } ∧
  (∀ c : CycleIn, State.reset.srcReady c = (!c.rst && c.sinkReady)) ∧
  ∀ (lenW : Nat) (cap : Option Nat), eventPort lenW State.reset.port = EventPort.zero lenW ∧
    (rawPort lenW cap State.reset.port).msgValid = false ∧ (rawPort lenW cap State.reset.port).msgLen = 0 ∧
    ∀ b ∈ (rawPort lenW cap State.reset.port).msgByte, b = 0

/-! ## The machine as a whole -/

/-- R22, R25, R26 and the rest of `State.Inv`, kept by every step from every state. -/
def Obligations.InvariantKeptByStep : Prop :=
  ∀ s t : State, s.Inv → step s = .next t → t.Inv

/-- The invariant holds right after reset, for all parameters R8 and R9 admit and whatever the environment does. -/
def Obligations.InvariantAtReset : Prop :=
  ∀ (p : Params) (input : List Input), p.wf = true → ({ State.reset with params := p, input := input }).Inv

/-- R25, R26: each flag is set only by its own operation and cleared only by reset. -/
def Obligations.StopFlagsSetAndCleared : Prop :=
  ∀ s t : State, step s = .next t →
    (s.fatal = true → t.fatal = false → ∃ c, s.input.head? = some (.cycle c) ∧ c.rst = true) ∧
    (s.fault = true → t.fault = false → ∃ c, s.input.head? = some (.cycle c) ∧ c.rst = true) ∧
    (s.fatal = false → t.fatal = true → ∃ c cause, s.input.head? = some (.cycle c) ∧
      c.offered = [.ended cause] ∧ t.fatalCause = cause) ∧
    (s.fault = false → t.fault = true → ∃ c b, s.input.head? = some (.cycle c) ∧ c.offered = [.byte b] ∧
      b.toNat ≤ 127 ∧ s.params.msgCap = some s.buf.length ∧ t.buf = s.buf) ∧
    (s.fatal = true → t.fatal = true → t.fatalCause = s.fatalCause)

/-- No step faults, since the two stops are next states and a stopped block waits (the model's reading, log 7); and
from a state that meets the invariant a step stops only where the spec says a model refuses: a multi-hot cycle (R32)
or a message given directly outside the domain (R108). -/
def Obligations.StepStopsOnlyWhereRefused : Prop :=
  (∀ (s : State) (f : Fault), step s ≠ .fault f) ∧
  (∀ (s : State) (r : Refusal), s.Inv → step s = .refused r →
    (r = .multiHot ∧ ∃ c, s.input.head? = some (.cycle c) ∧ c.rst = false ∧ 2 ≤ c.offered.length) ∨
    (r = .outOfDomain ∧ ∃ m, s.input.head? = some (.message m) ∧ interpret m = none))

/-- R24, R48: every step consumes exactly one entry of the input and no step changes the parameters. With no entry left
the block waits, which is the model's reading (log 1, 3). -/
def Obligations.StepConsumesOneInput : Prop :=
  (∀ s t : State, step s = .next t → t.input = s.input.tail ∧ t.params = s.params) ∧
  ∀ s : State, step (s.withInput []) = .next { s with port := none, input := [] }

/-! ## Runs -/

/-- R90: from an empty buffer of unbounded capacity a run over any bytes completes, presents exactly the messages of
`frame_prefix` in order, each with its result, and leaves its rest in the buffer; those messages and the rest,
concatenated, are the bytes. -/
def Obligations.RunIsFramePrefix : Prop :=
  ∀ (s : State) (bytes : List Byte), s.stopped = false → s.buf = [] → s.params.msgCap = none →
    (∃ es t, observeBytes s bytes = .next (es, t) ∧ es.map Emission.raw = (framePrefix bytes).1 ∧
      t.buf = (framePrefix bytes).2 ∧ t.stopped = false ∧ t.input = [] ∧
      ∀ e ∈ es, interpret e.raw = some e.result) ∧
    (framePrefix bytes).1.flatten ++ (framePrefix bytes).2 = bytes

/-- R51 (e): no byte is lost, duplicated or moved, from every shape of buffer and every capacity, as long as the run
does not overflow. -/
def Obligations.NoByteIsLost : Prop :=
  ∀ (s t : State) (bytes : List Byte) (es : List Emission), s.stopped = false →
    observeBytes s bytes = .next (es, t) → t.stopped = false →
      (es.map Emission.raw).flatten ++ t.buf = s.buf ++ bytes

/-- R52: the number of results presented after these bytes. -/
def Obligations.OutputCount : Prop :=
  ∀ (s t : State) (bytes : List Byte) (es : List Emission), s.stopped = false → s.buf = [] →
    observeBytes s bytes = .next (es, t) → t.stopped = false → es.length = closedCount bytes

/-- R88: a status byte and its data bytes are held back whole; the next status byte, or the end of the stream when it
flushes, presents exactly them. -/
def Obligations.OneMessageIsOneEmission : Prop :=
  ∀ (s : State) (b : Byte) (ds : List Byte), s.stopped = false → s.buf = [] → 128 ≤ b.toNat →
    (∀ d ∈ ds, d.toNat ≤ 127) → (∀ n, s.params.msgCap = some n → ds.length + 1 ≤ n) →
    ∃ r, interpret (b :: ds) = some r ∧
      observeBytes s (b :: ds) = .next ([], { s with buf := b :: ds, port := none, input := [] }) ∧
      (∀ b' : Byte, 128 ≤ b'.toNat → ∃ t,
        observeBytes s (b :: ds ++ [b']) = .next ([{ raw := b :: ds, result := r }], t) ∧ t.buf = [b']) ∧
      (s.params.eosFlush = true → ∃ t,
        observeInputs s ((b :: ds).map (fun d => .cycle (byteCycle d)) ++ [.cycle (endCycle .eos)]) =
          .next ([{ raw := b :: ds, result := r }], t) ∧ t.buf = [] ∧ t.fatal = true)

/-- R89: `N` consecutive status bytes present `N - 1` messages of length 1, in order, and leave the last. -/
def Obligations.ConsecutiveStatusBytes : Prop :=
  ∀ (s : State) (bs : List Byte) (last : Byte), s.stopped = false → s.buf = [] →
    (∀ b ∈ bs ++ [last], 128 ≤ b.toNat) →
    ∃ es t, observeBytes s (bs ++ [last]) = .next (es, t) ∧ es.map Emission.raw = bs.map (fun b => [b]) ∧
      t.buf = [last]

/-- R119: in the composed block `Empty` is never presented; `UnknownCommand` only for the first message, only when the
first byte is a data byte, and with that byte's high nibble. -/
def Obligations.ErrorsOfTheComposedBlock : Prop :=
  ∀ (s t : State) (bytes : List Byte) (es : List Emission), s.stopped = false → s.buf = [] →
    observeBytes s bytes = .next (es, t) →
      (∀ e ∈ es, e.result ≠ .err .empty) ∧
      (∀ e ∈ es.tail, ∀ kind, e.result ≠ .err (.unknownCommand kind)) ∧
      (∀ e kind, es.head? = some e → e.result = .err (.unknownCommand kind) →
        ∃ b, bytes.head? = some b ∧ b.toNat ≤ 127 ∧ kind = BitVec.ofNat 4 (b.toNat / 16))

/-- R45: cycles in which nothing is transferred, anywhere in a run and however many, change neither what is presented
nor the state reached. -/
def Obligations.ChunkingIsInvisible : Prop :=
  ∀ (s t : State) (inputs : List Input) (es : List Emission), observeInputs s inputs = .next (es, t) →
    ∃ t', observeInputs s (inputs.filter fun i => !waitingCycle i) = .next (es, t') ∧
      t'.buf = t.buf ∧ t'.fatal = t.fatal ∧ t'.fatalCause = t.fatalCause ∧ t'.fault = t.fault

/-- R85, R169: with a finite `MSG_CAP` a status byte and more than `MSG_CAP - 1` data bytes end in `fault` with the
first `MSG_CAP` bytes kept and nothing presented, which is never a safe end. -/
def Obligations.LongMessageFaults : Prop :=
  ∀ (s : State) (n : Nat) (b : Byte) (ds : List Byte), s.stopped = false → s.buf = [] →
    s.params.msgCap = some n → 1 ≤ n → 128 ≤ b.toNat → (∀ d ∈ ds, d.toNat ≤ 127) → n - 1 < ds.length →
    ∃ t, observeBytes s (b :: ds) = .next ([], t) ∧ t.fault = true ∧ t.buf = (b :: ds).take n ∧
      (∀ es, (observationOf es t).status = .faulted) ∧ endsSafely (observeBytes s (b :: ds)) = false

/-! ## The output signals -/

/-- R34, R136: the event port of every answer the Interpreter gives, signal by signal, from the message. -/
def Obligations.EventPortSignals : Prop :=
  ∀ (lenW : Nat) (m : RawMessage) (r : Result), interpret m = some r →
    (∀ (cap : Option Nat) (out : Option Emission), (eventPort lenW out).evValid = (rawPort lenW cap out).msgValid) ∧
    eventPort lenW none = EventPort.zero lenW ∧
    eventPort lenW (some { raw := m, result := r }) = resultPort lenW r ∧
    (resultPort lenW r).evValid = true ∧
    match r with
    | .ok e => ∃ b rest, m = b :: rest ∧ e.raw = m ∧
        (resultPort lenW r).evStatus = 0 ∧
        (resultPort lenW r).evKind.toNat = b.toNat / 16 ∧
        (resultPort lenW r).evChannel.toNat = b.toNat % 16 ∧
        (resultPort lenW r).evNf.toNat = rest.length ∧
        (resultPort lenW r).evF0.toNat = (m[1]?.getD 0).toNat ∧
        (resultPort lenW r).evF1.toNat = (m[2]?.getD 0).toNat ∧
        ((resultPort lenW r).evValueValid = true ↔ b.toNat / 16 = 14) ∧
        (resultPort lenW r).evValue.toNat =
          (if b.toNat / 16 = 14 then (m[1]?.getD 0).toNat + 128 * (m[2]?.getD 0).toNat else 0) ∧
        (resultPort lenW r).evExpected = 0 ∧ (resultPort lenW r).evActual = 0
    | .err .empty => m = [] ∧ resultPort lenW r = { EventPort.zero lenW with evValid := true, evStatus := 1 }
    | .err (.unknownCommand kind) => (∃ b rest, m = b :: rest ∧ kind.toNat = b.toNat / 16) ∧ kind.toNat ≤ 7 ∧
        resultPort lenW r = { EventPort.zero lenW with evValid := true, evStatus := 2, evKind := kind }
    | .err (.arityMismatch expected actual) =>
        (∃ b rest cmd, m = b :: rest ∧ (kindOfCommand cmd).toNat = b.toNat / 16 ∧
          expected = (fieldsOfCommand cmd).length ∧ actual = rest.length) ∧
        expected ≤ 2 ∧ expected ≠ actual ∧ actual + 1 = m.length ∧
        (resultPort lenW r).evExpected.toNat = expected ∧
        resultPort lenW r = { EventPort.zero lenW with
          evValid := true, evStatus := 3, evExpected := (resultPort lenW r).evExpected
          evActual := BitVec.ofNat lenW actual }

/-- R10, R33: with a finite `MSG_CAP` and `2^LEN_W > MSG_CAP`, the count signals of every clock cycle carry the true
counts, and the message's bytes fill the port's `MSG_CAP` positions with zeros after them. -/
def Obligations.CountSignalsDoNotWrap : Prop :=
  ∀ (s t : State) (c : CycleIn) (rest : List Input) (lenW n : Nat) (e : Emission), s.Inv →
    s.params.msgCap = some n → n < 2 ^ lenW →
    step (s.withInput (.cycle c :: rest)) = .next t → t.port = some e →
      (rawPort lenW (some n) t.port).msgLen.toNat = e.raw.length ∧
      (rawPort lenW (some n) t.port).msgByte.length = n ∧
      (∀ i, i < n → (rawPort lenW (some n) t.port).msgByte[i]? = some (e.raw[i]?.getD 0)) ∧
      (∀ expected actual, e.result = .err (.arityMismatch expected actual) →
        (eventPort lenW t.port).evActual.toNat = actual)

/-- R25, R26, R35, R136: in every state the level outputs show the flags, `fatal_cause` as 0 for `EOS` and 1 for `ERR`;
what they show from END, from an overflow and from reset on. -/
def Obligations.LevelOutputsShowFlags : Prop :=
  (∀ s : State,
    (levelPort s).fatal = (if s.fatal then 1 else 0) ∧ (levelPort s).fault = (if s.fault then 1 else 0) ∧
    (levelPort s).fatalCause = (match s.fatalCause with | .eos => 0 | .err => 1)) ∧
  (∀ (s : State) (cause : Cause) (rest : List Input), s.stopped = false → (shapeOf s.buf).isSome = true →
    ∃ t, step (s.withInput (.cycle (endCycle cause) :: rest)) = .next t ∧
      levelPort t = { fatal := 1, fatalCause := if cause = .eos then 0 else 1, fault := 0 }) ∧
  (∀ (s : State) (b : Byte) (rest : List Input), s.stopped = false → b.toNat ≤ 127 →
    s.params.msgCap = some s.buf.length →
    ∃ t, step (s.withInput (.cycle (byteCycle b) :: rest)) = .next t ∧
      levelPort t = { fatal := 0, fatalCause := (levelPort s).fatalCause, fault := 1 }) ∧
  (∀ (s : State) (c : CycleIn) (rest : List Input), c.rst = true → c.offered.length ≤ 1 →
    ∃ t, step (s.withInput (.cycle c :: rest)) = .next t ∧ levelPort t = { fatal := 0, fatalCause := 0, fault := 0 })

/-! ## Conservation, step by step, and runs as the spec defines them -/

/-- R51 (e) as a step lemma: if what was presented so far, followed by the buffer, is what was accepted so far, then a
cycle without reset that does not fault keeps it so, adding the byte it accepts, if it accepts one. -/
def Obligations.AcceptedBytesConserved : Prop :=
  ∀ (s t : State) (c : CycleIn) (rest : List Input) (accepted : List Byte) (out : List RawMessage),
    c.rst = false → step (s.withInput (.cycle c :: rest)) = .next t → t.fault = false →
    out.flatten ++ s.buf = accepted →
      (out ++ (t.port.map Emission.raw).toList).flatten ++ t.buf =
        accepted ++ (if s.srcReady c && c.srcValid then [c.srcByte] else [])

/-- R172: every run completes and is observed; with `fault` 1, which needs a finite `MSG_CAP`, it is a fault and not an
end; otherwise it has ended exactly if its last event is an `End`, with that cause, and else it is a prefix, which every
event extends to a run that presents the same and perhaps more. -/
def Obligations.RunsObserved : Prop :=
  ∀ r : Run, ∃ o, r.observe = .next o ∧
    (o.fault = true → o.status = .faulted ∧ o.fatal = false ∧ ∃ n, r.params.msgCap = some n) ∧
    (o.fault = false → o.status =
      match r.events.getLast? with
      | some (.ended cause) => .ended cause
      | _ => .waiting) ∧
    (o.status = .waiting → ∀ e, ∃ r' : Run, r'.params = r.params ∧ r'.events = r.events ++ [e] ∧
      ∃ o', r'.observe = .next o' ∧ o.outputs <+: o'.outputs)

/-! ## The stopped block produces no output -/

/-- R25, R26: while `fatal` or `fault` is 1 no step of any kind presents anything, and every step but a reset leaves the
buffer and the flags; the Interpreter's eight commands complete without presenting their event. That the Interpreter
can be driven there at all is the model's choice (log 2). -/
def Obligations.StoppedBlockPresentsNothing : Prop :=
  (∀ s t : State, s.stopped = true → step s = .next t → t.port = none ∧
    ((∃ c, s.input.head? = some (.cycle c) ∧ c.rst = true) ∨
      t = { s with port := none, input := s.input.tail })) ∧
  (∀ (i : Instr) (s : State), i.level = .interpreter → s.stopped = true →
    exec i s = .next { s with port := none })
end

