-- ==== Sys2Proof/Laws/Operands.lean ====
section
/-! SUPPORT. What each operand form computes, in plain arithmetic, and the Interpreter's algorithm on a command's own
bytes. -/

namespace Sys2Proof.Machine

theorem dataByteOf_toNat (v : FieldValue) : (dataByteOf v).toNat = v.toNat := by
  have := v.isLt
  simp only [dataByteOf, BitVec.toNat_setWidth]
  omega

/-- The bytes that have a payload are exactly the bytes made from one. -/
theorem payloadOf_some {b : Byte} {v : FieldValue} : payloadOf b = some v ↔ b = dataByteOf v := by
  have hv := v.isLt
  rw [payloadOf, isStatusByte, BitVec.toNat_eq, dataByteOf_toNat]
  split <;> simp_all [BitVec.toNat_eq] <;> omega

/-- A byte without a payload is a status byte. -/
theorem payloadOf_none {b : Byte} : payloadOf b = none ↔ 128 ≤ b.toNat := by
  simp [payloadOf, isStatusByte]

/-- The kind is the status byte divided by 16. -/
theorem kindOf_toNat (b : Byte) : (kindOf b).toNat = b.toNat / 16 := by
  have := b.isLt
  simp [kindOf, Nat.shiftRight_eq_div_pow]
  omega

/-- The channel is the status byte's remainder by 16. -/
theorem channelOf_toNat (b : Byte) : (channelOf b).toNat = b.toNat % 16 := by
  have h := Nat.and_two_pow_sub_one_eq_mod b.toNat 4
  have h' := Nat.and_two_pow_sub_one_eq_mod (b.toNat % 16) 4
  simp at h h'
  simp [channelOf]
  omega

/-- The decoder's kind nibble is the machine's. -/
theorem extract_kindOf (b : Byte) : b.extractLsb' 4 4 = kindOf b := by
  have := b.isLt
  simp [BitVec.toNat_eq, kindOf_toNat, Nat.shiftRight_eq_div_pow]
  omega

/-- The decoder's channel nibble is the machine's. -/
theorem extract_channelOf (b : Byte) : b.extractLsb' 0 4 = channelOf b := by
  simp [BitVec.toNat_eq, channelOf_toNat]

/-- A status byte is 16 times its kind plus its channel. -/
theorem statusByteOf_toNat (k : Kind) (c : Channel) : (statusByteOf k c).toNat = 16 * k.toNat + c.toNat := by
  have hc : c.toNat < 16 := c.isLt
  rw [statusByteOf, BitVec.toNat_append, ← Nat.shiftLeft_add_eq_or_of_lt (by simpa using hc), Nat.shiftLeft_eq]
  omega

/-- The shift form of a status byte is the concatenation of its two nibbles. -/
theorem statusByteOf_eq_shift (k : Kind) (c : Channel) :
    (k.setWidth 8 <<< 4) ||| c.setWidth 8 = statusByteOf k c := by
  have hc : c.toNat < 16 := c.isLt
  have hk : k.toNat < 16 := k.isLt
  apply BitVec.eq_of_toNat_eq
  rw [statusByteOf_toNat, BitVec.toNat_or, BitVec.toNat_shiftLeft, BitVec.toNat_setWidth, BitVec.toNat_setWidth,
    Nat.mod_eq_of_lt (a := k.toNat) (by omega), Nat.mod_eq_of_lt (a := c.toNat) (by omega),
    Nat.mod_eq_of_lt (by rw [Nat.shiftLeft_eq]; omega), ← Nat.shiftLeft_add_eq_or_of_lt (by omega),
    Nat.shiftLeft_eq]
  omega

@[simp] theorem kindOf_statusByteOf (k : Kind) (c : Channel) : kindOf (statusByteOf k c) = k := by
  have hc : c.toNat < 16 := c.isLt
  apply BitVec.eq_of_toNat_eq
  rw [kindOf_toNat, statusByteOf_toNat]
  omega

@[simp] theorem channelOf_statusByteOf (k : Kind) (c : Channel) : channelOf (statusByteOf k c) = c := by
  have hc : c.toNat < 16 := c.isLt
  apply BitVec.eq_of_toNat_eq
  rw [channelOf_toNat, statusByteOf_toNat]
  omega

/-- No status byte is lost by splitting it. -/
@[simp] theorem statusByteOf_kindOf (b : Byte) : statusByteOf (kindOf b) (channelOf b) = b := by
  apply BitVec.eq_of_toNat_eq
  rw [statusByteOf_toNat, kindOf_toNat, channelOf_toNat]
  omega

/-- Every command stands in the table under its own kind. -/
@[simp] theorem tableLookup_kindOfCommand (cmd : Command) : tableLookup (kindOfCommand cmd) = some cmd := by
  cases cmd <;> rfl

theorem commandBytes_eq (cmd : Command) (c : Channel) (values : List FieldValue) :
    commandBytes cmd c values = statusByteOf (kindOfCommand cmd) c :: values.map dataByteOf := by
  rw [commandBytes, statusByteOf_eq_shift]

/-- The field values of bytes made from field values are those values. -/
theorem fieldValues_map (values : List FieldValue) : fieldValues (values.map dataByteOf) = some values := by
  induction values with
  | nil => rfl
  | cons v values ih => simp [fieldValues, ih, payloadOf_some.2 rfl]

/-- Data bytes have field values, and are made from them. -/
theorem fieldValues_some {m : List Byte} {values : List FieldValue} :
    fieldValues m = some values ↔ m = values.map dataByteOf := by
  refine ⟨fun h => ?_, fun h => h ▸ fieldValues_map values⟩
  induction m generalizing values with
  | nil => simp [fieldValues] at h; simp [← h]
  | cons b m ih =>
    simp only [fieldValues] at h
    split at h
    · next v values' hv hvs => cases h; simp [ih hvs, payloadOf_some.1 hv]
    · cases h

/-- Bytes without field values hold a status byte. -/
theorem fieldValues_none {m : List Byte} : fieldValues m = none ↔ ∃ b ∈ m, 128 ≤ b.toNat := by
  induction m with
  | nil => simp [fieldValues]
  | cons b m ih =>
    simp only [fieldValues, List.exists_mem_cons_iff, ← payloadOf_none] at ih ⊢
    rw [← ih]
    cases payloadOf b <;> cases fieldValues m <;> simp

/-- The algorithm answers a command's bytes with the command's event. -/
theorem interpret_commandBytes (cmd : Command) (c : Channel) (values : List FieldValue)
    (h : values.length = (fieldsOfCommand cmd).length) :
    interpret (commandBytes cmd c values) =
      some (.ok (buildEvent cmd c (commandBytes cmd c values) values)) := by
  simp [commandBytes_eq, interpret, fieldValues_map, h]

end Sys2Proof.Machine
end

