-- ==== Sys2Proof/Laws/State.lean ====
section
/-! SUPPORT. One lemma per field per update of the state, so that no proof unfolds a record update. -/

namespace Sys2Proof.Machine.State

variable (s : State) (bytes : List Byte) (out : Option Emission) (rest : List Input) (cause : Cause) (x : Stop)
variable (e : Emission)

@[simp] theorem withBuf_params : (s.withBuf bytes).params = s.params := rfl
@[simp] theorem withBuf_buf : (s.withBuf bytes).buf = bytes := rfl
@[simp] theorem withBuf_fatal : (s.withBuf bytes).fatal = s.fatal := rfl
@[simp] theorem withBuf_fatalCause : (s.withBuf bytes).fatalCause = s.fatalCause := rfl
@[simp] theorem withBuf_fault : (s.withBuf bytes).fault = s.fault := rfl
@[simp] theorem withBuf_port : (s.withBuf bytes).port = s.port := rfl
@[simp] theorem withBuf_input : (s.withBuf bytes).input = s.input := rfl

@[simp] theorem withPort_params : (s.withPort out).params = s.params := rfl
@[simp] theorem withPort_buf : (s.withPort out).buf = s.buf := rfl
@[simp] theorem withPort_fatal : (s.withPort out).fatal = s.fatal := rfl
@[simp] theorem withPort_fatalCause : (s.withPort out).fatalCause = s.fatalCause := rfl
@[simp] theorem withPort_fault : (s.withPort out).fault = s.fault := rfl
@[simp] theorem withPort_port : (s.withPort out).port = out := rfl
@[simp] theorem withPort_input : (s.withPort out).input = s.input := rfl

@[simp] theorem present_params : (s.present e).params = s.params := rfl
@[simp] theorem present_buf : (s.present e).buf = s.buf := rfl
@[simp] theorem present_fatal : (s.present e).fatal = s.fatal := rfl
@[simp] theorem present_fatalCause : (s.present e).fatalCause = s.fatalCause := rfl
@[simp] theorem present_fault : (s.present e).fault = s.fault := rfl
@[simp] theorem present_input : (s.present e).input = s.input := rfl

@[simp] theorem withInput_params : (s.withInput rest).params = s.params := rfl
@[simp] theorem withInput_buf : (s.withInput rest).buf = s.buf := rfl
@[simp] theorem withInput_fatal : (s.withInput rest).fatal = s.fatal := rfl
@[simp] theorem withInput_fatalCause : (s.withInput rest).fatalCause = s.fatalCause := rfl
@[simp] theorem withInput_fault : (s.withInput rest).fault = s.fault := rfl
@[simp] theorem withInput_port : (s.withInput rest).port = s.port := rfl
@[simp] theorem withInput_input : (s.withInput rest).input = rest := rfl

@[simp] theorem raise_params : (s.raise x).params = s.params := by cases x <;> rfl
@[simp] theorem raise_buf : (s.raise x).buf = s.buf := by cases x <;> rfl
@[simp] theorem raise_port : (s.raise x).port = s.port := by cases x <;> rfl
@[simp] theorem raise_input : (s.raise x).input = s.input := by cases x <;> rfl
@[simp] theorem raise_streamFatal_fatal : (s.raise (.streamFatal cause)).fatal = true := rfl
@[simp] theorem raise_streamFatal_fatalCause : (s.raise (.streamFatal cause)).fatalCause = cause := rfl
@[simp] theorem raise_streamFatal_fault : (s.raise (.streamFatal cause)).fault = s.fault := rfl
@[simp] theorem raise_bufferOverflow_fatal : (s.raise .bufferOverflow).fatal = s.fatal := rfl
@[simp] theorem raise_bufferOverflow_fatalCause : (s.raise .bufferOverflow).fatalCause = s.fatalCause := rfl
@[simp] theorem raise_bufferOverflow_fault : (s.raise .bufferOverflow).fault = true := rfl

@[simp] theorem hold_params : s.hold.params = s.params := rfl
@[simp] theorem hold_buf : s.hold.buf = s.buf := rfl
@[simp] theorem hold_fatal : s.hold.fatal = s.fatal := rfl
@[simp] theorem hold_fatalCause : s.hold.fatalCause = s.fatalCause := rfl
@[simp] theorem hold_fault : s.hold.fault = s.fault := rfl
@[simp] theorem hold_port : s.hold.port = none := rfl
@[simp] theorem hold_input : s.hold.input = s.input := rfl

@[simp] theorem resetBlock_params : s.resetBlock.params = s.params := rfl
@[simp] theorem resetBlock_buf : s.resetBlock.buf = [] := rfl
@[simp] theorem resetBlock_fatal : s.resetBlock.fatal = false := rfl
@[simp] theorem resetBlock_fatalCause : s.resetBlock.fatalCause = .eos := rfl
@[simp] theorem resetBlock_fault : s.resetBlock.fault = false := rfl
@[simp] theorem resetBlock_port : s.resetBlock.port = none := rfl
@[simp] theorem resetBlock_input : s.resetBlock.input = s.input := rfl

@[simp] theorem withInput_withInput (more : List Input) : (s.withInput rest).withInput more = s.withInput more := rfl
@[simp] theorem withInput_self : s.withInput s.input = s := rfl
@[simp] theorem withPort_withPort (out' : Option Emission) : (s.withPort out).withPort out' = s.withPort out' := rfl

/-- A running block presents what it is given. -/
theorem present_running (h : s.stopped = false) : s.present e = s.withPort (some e) := by
  simp [present, h]

/-- A stopped block presents nothing: it holds. -/
theorem present_stopped (h : s.stopped = true) : s.present e = s.hold := by
  simp [present, hold, h]

/-- What was presented was presented by a running block. -/
theorem present_port {e e' : Emission} : (s.present e).port = some e' ↔ s.stopped = false ∧ e = e' := by
  cases h : s.stopped <;> simp [present, h, withPort]

/-- A stop is decided by the two flags. -/
theorem stopped_eq_false : s.stopped = false ↔ s.fatal = false ∧ s.fault = false := by
  simp [stopped]

end Sys2Proof.Machine.State
end

