-- ==== Sys2Proof/Laws/Ops.lean ====
section
/-! SUPPORT. For each shared operation and each meaning, one lemma that says once everything it can do. -/

namespace Sys2Proof.Machine

/-- Everything `emit` can do when it goes on: present nothing from an empty buffer, or present the buffer with the
Interpreter's result. -/
theorem emit_next {s t : State} (h : emit s = .next t) :
    (s.buf = [] ∧ t = s.withPort none) ∨
    (s.buf ≠ [] ∧ ∃ r, interpret s.buf = some r ∧ t = s.withPort (some { raw := s.buf, result := r })) := by
  unfold emit at h
  split at h
  · next hb => exact .inl ⟨hb, by simpa using h.symm⟩
  · next hb =>
    split at h
    · next r hr => exact .inr ⟨hb, r, hr, by simpa using h.symm⟩
    · cases h

/-- When `emit` does not go on: the buffer is a message outside the Interpreter's domain. -/
theorem emit_stops {s : State} (h : ∀ t, emit s ≠ .next t) :
    emit s = .refused .outOfDomain ∧ s.buf ≠ [] ∧ interpret s.buf = none := by
  unfold emit at h ⊢
  split
  · next hb => simp [hb] at h
  · next hb =>
    split
    · next r hr => simp [hb, hr] at h
    · next hr => exact ⟨rfl, hb, hr⟩

/-- `andThen` goes on exactly when both parts do. -/
theorem andThen_next {o : Host.Outcome State Fault Refusal} {f : State → Host.Outcome State Fault Refusal} {t : State}
    (h : andThen o f = .next t) : ∃ u, o = .next u ∧ f u = .next t := by
  cases o with
  | next u => exact ⟨u, rfl, h⟩
  | fault r => cases h
  | refused r => cases h

/-- Everything STATUS can do when it goes on (R82). -/
theorem execStatus_next {b : Byte} {s t : State} (h : execStatus b s = .next t) :
    s.stopped = false ∧ ∃ u, emit s = .next u ∧ t = u.withBuf [b] := by
  unfold execStatus at h
  split at h
  · cases h
  · next hs =>
    obtain ⟨u, hu, ht⟩ := andThen_next h
    exact ⟨by simpa using hs, u, hu, by simpa using ht.symm⟩

/-- Everything DATA can do when it goes on (R83, R85). -/
theorem execData_next {b : Byte} {s t : State} (h : execData b s = .next t) :
    s.stopped = false ∧
    ((s.params.msgCap = some s.buf.length ∧ t = (s.withPort none).raise .bufferOverflow) ∨
     (s.params.msgCap ≠ some s.buf.length ∧ t = (s.withPort none).withBuf (s.buf ++ [b]))) := by
  unfold execData at h
  split at h
  · cases h
  · next hs =>
    refine ⟨by simpa using hs, ?_⟩
    split at h
    · next hf => exact .inl ⟨by simpa [State.bufFull] using hf, by simpa using h.symm⟩
    · next hf => exact .inr ⟨by simpa [State.bufFull] using hf, by simpa using h.symm⟩

/-- Everything END can do when it goes on (R84). -/
theorem execEnd_next {cause : Cause} {s t : State} (h : execEnd cause s = .next t) :
    s.stopped = false ∧
    ((s.params.eosFlush = true ∧ cause = .eos ∧
        ∃ u, emit s = .next u ∧ t = (u.withBuf []).raise (.streamFatal cause)) ∨
     (¬ (s.params.eosFlush = true ∧ cause = .eos) ∧ t = (s.withPort none).raise (.streamFatal cause))) := by
  unfold execEnd at h
  split at h
  · cases h
  · next hs =>
    refine ⟨by simpa using hs, ?_⟩
    split at h
    · next hf =>
      obtain ⟨u, hu, ht⟩ := andThen_next h
      simp only [Bool.and_eq_true, decide_eq_true_eq] at hf
      exact .inl ⟨hf.1, hf.2, u, hu, by simpa using ht.symm⟩
    · next hf => exact .inr ⟨by simpa using hf, by simpa using h.symm⟩

/-- Everything one clock cycle can do when it goes on: reset, wait, or run the one event offered. -/
theorem runCycle_next {c : CycleIn} {s t : State} (h : runCycle c s = .next t) :
    (c.rst = true ∧ t = s.resetBlock) ∨
    (c.rst = false ∧ t = s.hold ∧
      (c.offered = [] ∨ ∃ e, c.offered = [e] ∧ s.srcReady c = false)) ∨
    (c.rst = false ∧ ∃ e, c.offered = [e] ∧ s.srcReady c = true ∧ runEvent e s = .next t) := by
  unfold runCycle at h
  split at h
  · next hr => exact .inl ⟨hr, by simpa using h.symm⟩
  · next hr =>
    have hr : c.rst = false := by simpa using hr
    split at h
    · next ho => exact .inr (.inl ⟨hr, by simpa using h.symm, .inl ho⟩)
    · next e ho =>
      split at h
      · next hq => exact .inr (.inr ⟨hr, e, ho, hq, h⟩)
      · next hq => exact .inr (.inl ⟨hr, by simpa using h.symm, .inr ⟨e, ho, by simpa using hq⟩⟩)
    · cases h

/-- Everything a message given directly can do when it goes on: run its command, or present its error (which a stopped
block does not). -/
theorem runMessage_next {m : RawMessage} {s t : State} (h : runMessage m s = .next t) :
    (∃ i, decodeMessage m = .ok i ∧ exec i s = .next t) ∨
    (∃ e, decodeMessage m = .error (.error e) ∧ t = s.present { raw := m, result := .err e }) := by
  unfold runMessage at h
  split at h
  · next i hi => exact .inl ⟨i, hi, h⟩
  · next r hr =>
    cases r with
    | error e => exact .inr ⟨e, hr, by simpa [answerReject] using h.symm⟩
    | highDataByte => cases h

/-- Everything a step can do when it goes on: wait with no input left, or consume one entry. -/
theorem step_next {s t : State} (h : step s = .next t) :
    (s.input = [] ∧ t = s.hold) ∨
    (∃ c rest, s.input = .cycle c :: rest ∧ runCycle c (s.withInput rest) = .next t) ∨
    (∃ m rest, s.input = .message m :: rest ∧ runMessage m (s.withInput rest) = .next t) := by
  unfold step runNext at h
  split at h
  · next hi => exact .inl ⟨hi, by simpa using h.symm⟩
  · next c rest hi => exact .inr (.inl ⟨c, rest, hi, h⟩)
  · next m rest hi => exact .inr (.inr ⟨m, rest, hi, h⟩)

end Sys2Proof.Machine
end

