-- ==== Sys2Proof/Laws/PerInstr.lean ====
section
/-! SUPPORT. Facts about every operation as syntax, one lemma per constructor. -/

namespace Sys2Proof.Laws.Format

/-- The encoding of a well-formed operation has the format of R60 and R63: a command is one status byte followed by
data bytes only; STATUS is one status byte and DATA one data byte. -/
def Statement (i : Instr) : Prop :=
  i.wellFormed = true →
    ∃ b rest, encode i = b :: rest ∧ rest.all (fun d => !isStatusByte d) = true ∧
      (isStatusByte b = true ↔ ∀ d, i ≠ .data d) ∧ (i.level = .framer → rest = [])

theorem dataByteOf_class (v : FieldValue) : isStatusByte (dataByteOf v) = false := by
  have : v.toNat < 128 := v.isLt
  simp only [isStatusByte, dataByteOf, BitVec.toNat_setWidth, decide_eq_false_iff_not]
  omega

theorem statusByteOf_class (kind : Kind) (c : Channel) (h : 8 ≤ kind.toNat) :
    isStatusByte (statusByteOf kind c) = true := by
  have hc : c.toNat < 16 := c.isLt
  have hv : (statusByteOf kind c).toNat = kind.toNat * 16 + c.toNat := by
    rw [statusByteOf, BitVec.toNat_append, ← Nat.shiftLeft_add_eq_or_of_lt (by simpa using hc), Nat.shiftLeft_eq]
  exact decide_eq_true (by omega)

theorem noteOff (c : Channel) (key velocity : FieldValue) : Statement (.noteOff c key velocity) := fun _ =>
  ⟨_, _, rfl, by simp [dataByteOf_class], by simp [statusByteOf_class], by simp [Instr.level]⟩

theorem noteOn (c : Channel) (key velocity : FieldValue) : Statement (.noteOn c key velocity) := fun _ =>
  ⟨_, _, rfl, by simp [dataByteOf_class], by simp [statusByteOf_class], by simp [Instr.level]⟩

theorem aftertouch (c : Channel) (key touch : FieldValue) : Statement (.aftertouch c key touch) := fun _ =>
  ⟨_, _, rfl, by simp [dataByteOf_class], by simp [statusByteOf_class], by simp [Instr.level]⟩

theorem controller (c : Channel) (controller value : FieldValue) : Statement (.controller c controller value) := fun _ =>
  ⟨_, _, rfl, by simp [dataByteOf_class], by simp [statusByteOf_class], by simp [Instr.level]⟩

theorem programChange (c : Channel) (instrument : FieldValue) : Statement (.programChange c instrument) := fun _ =>
  ⟨_, _, rfl, by simp [dataByteOf_class], by simp [statusByteOf_class], by simp [Instr.level]⟩

theorem channelPressure (c : Channel) (pressure : FieldValue) : Statement (.channelPressure c pressure) := fun _ =>
  ⟨_, _, rfl, by simp [dataByteOf_class], by simp [statusByteOf_class], by simp [Instr.level]⟩

theorem pitchBend (c : Channel) (lsb msb : FieldValue) : Statement (.pitchBend c lsb msb) := fun _ =>
  ⟨_, _, rfl, by simp [dataByteOf_class], by simp [statusByteOf_class], by simp [Instr.level]⟩

theorem system (c : Channel) : Statement (.system c) := fun _ =>
  ⟨_, _, rfl, by simp, by simp [statusByteOf_class], by simp [Instr.level]⟩

theorem status (b : Byte) : Statement (.status b) := fun h =>
  ⟨_, _, rfl, by simp, by simpa [Instr.wellFormed, isStatusByte] using h, fun _ => rfl⟩

theorem data (b : Byte) : Statement (.data b) := fun h =>
  ⟨_, _, rfl, by simp, by simp [Instr.wellFormed, isStatusByte] at h ⊢; omega, fun _ => rfl⟩

end Sys2Proof.Laws.Format
end

