-- ==== Sys2Proof/Laws/Runs.lean ====
section
/-! SUPPORT. What a run that goes on has done, step by step, and how the states it can reach stand. -/

namespace Sys2Proof.Machine

/-- Everything a run of `k + 1` steps can do when it goes on: one step, then the rest from there. -/
theorem observe_succ_next {k : Nat} {s u : State} {es : List Emission} (h : observe (k + 1) s = .next (es, u)) :
    ∃ t es', step s = .next t ∧ observe k t = .next (es', u) ∧ es = t.port.toList ++ es' := by
  unfold observe at h
  split at h
  · next t ht =>
    split at h
    · next es' v hv => cases h; exact ⟨t, es', ht, hv, rfl⟩
    · cases h
    · cases h
  · cases h
  · cases h

/-- And the way back: a step and the rest of a run are a run. -/
theorem observe_succ {k : Nat} {s t u : State} {es : List Emission} (h : step s = .next t)
    (hr : observe k t = .next (es, u)) : observe (k + 1) s = .next (t.port.toList ++ es, u) := by
  simp only [observe, h, hr]

@[simp] theorem observeInputs_nil (s : State) : observeInputs s [] = .next ([], s.withInput []) := rfl

/-- A run does not depend on the input its first state held before. -/
@[simp] theorem observeInputs_withInput (s : State) (before inputs : List Input) :
    observeInputs (s.withInput before) inputs = observeInputs s inputs := rfl

/-- `fault` 1 is a fault whatever else holds. -/
theorem status_of_fault {o : Observation} (h : o.fault = true) : o.status = .faulted := by
  simp [Observation.status, h]

/-- An end needs `fatal` 1 and `fault` 0, and carries the cause. -/
theorem status_eq_ended {o : Observation} {cause : Cause} :
    o.status = .ended cause ↔ o.fault = false ∧ o.fatal = true ∧ o.fatalCause = cause := by
  unfold Observation.status
  cases o.fault <;> cases o.fatal <;> simp

/-- A run waits exactly when neither stop flag is set. -/
theorem status_eq_waiting {o : Observation} : o.status = .waiting ↔ o.fault = false ∧ o.fatal = false := by
  unfold Observation.status
  cases o.fault <;> cases o.fatal <;> simp

/-- A run that goes on ends safely exactly when the source has ended and nothing overflowed. -/
theorem endsSafely_next {es : List Emission} {t : State} :
    endsSafely (.next (es, t)) = true ↔ t.fatal = true ∧ t.fault = false := by
  unfold endsSafely Observation.status observationOf
  cases hfault : t.fault <;> cases hfatal : t.fatal <;> simp [hfault, hfatal]

/-- A run all of whose events are bytes may be extended by any event. -/
theorem onlyLastEnds_append {events : List InputEvent} (h : ∀ e ∈ events, ∃ b, e = .byte b) (last : InputEvent) :
    onlyLastEnds (events ++ [last]) = true := by
  induction events with
  | nil => rfl
  | cons e rest ih =>
    obtain ⟨b, rfl⟩ := h e (by simp)
    have := ih fun x hx => h x (by simp [hx])
    cases rest with
    | nil => rfl
    | cons e rest => simpa [onlyLastEnds] using this

@[simp] theorem offered_eventCycle (e : InputEvent) : (eventCycle e).offered = [e] := by
  cases e with
  | byte b => rfl
  | ended cause => cases cause <;> rfl

@[simp] theorem rst_eventCycle (e : InputEvent) : (eventCycle e).rst = false := by cases e <;> rfl

@[simp] theorem sinkReady_eventCycle (e : InputEvent) : (eventCycle e).sinkReady = true := by cases e <;> rfl

end Sys2Proof.Machine
end

