-- ==== Sys2Proof/Tests/Slice0.lean ====
section
/-! SUPPORT. The model's own tests, each about one step at most. Expected results are the spec's: "V n" and "S n" are
vectors of 95_test_vectors.md, otherwise the rule is named. After them, for every statement of
Certificates/Slice0/Obligations.lean that has hypotheses, concrete values that meet all of them together, at the
boundaries of each clause. -/

namespace Sys2Proof.Tests

open Sys2Proof Sys2Proof.Machine

/-- The next state, if there is one. -/
def nextOf : Host.Outcome State Fault Refusal → Option State
  | .next s => some s
  | .fault _ => none
  | .refused _ => none

/-- The refusal, if there is one. -/
def refusalOf : Host.Outcome State Fault Refusal → Option Refusal
  | .next _ => none
  | .fault _ => none
  | .refused r => some r

/-- The fault, if there is one. -/
def faultOf : Host.Outcome State Fault Refusal → Option Fault
  | .next _ => none
  | .fault r => some r
  | .refused _ => none

/-- The reset state with this buffer, `MSG_CAP` unbounded and `EOS_FLUSH` 0 (the vectors' default). -/
def holding (buf : List Byte) : State := { State.reset with buf := buf }

/-- The same with these parameters. -/
def holdingWith (cap : Option Nat) (flush : Bool) (buf : List Byte) : State :=
  { State.reset with params := { msgCap := cap, eosFlush := flush }, buf := buf }

/-- A state stopped by `StreamFatal(ERR)`, and one stopped by `BufferOverflow`. -/
def fatalState : State := { State.reset with buf := [0x80, 60, 0], fatal := true, fatalCause := .err }
def faultState : State := { holdingWith (some 3) false [0x90, 60, 65] with fault := true }

/-- One cycle, and one message given directly. -/
def cycled (c : CycleIn) (s : State) : Option State := nextOf (step (s.withInput [.cycle c]))
def answered (m : RawMessage) : Option Result :=
  ((nextOf (step (State.reset.withInput [.message m]))).bind State.port).map Emission.result

/-- The messages presented in a run and the buffer reached. -/
def seen : Host.Outcome (List Emission × State) Fault Refusal → Option (List RawMessage × List Byte × Bool)
  | .next (es, t) => some (es.map Emission.raw, t.buf, t.stopped)
  | .fault _ => none
  | .refused _ => none

/-! ## WellFormed: each check refuses an ill-formed operation (R60) -/

theorem test_illformed_status : (Instr.status 0x7F).wellFormed = false := by decide
theorem test_illformed_data : (Instr.data 0x80).wellFormed = false := by decide
theorem test_wellformed_bounds : (Instr.status 0x80).wellFormed = true ∧ (Instr.data 0x7F).wellFormed = true := by decide

/-! ## Decode: every constructor's word, written bit by bit from R60 to R63 and R70 -/

theorem test_decode_noteOff :
    decode .interpreter [0b10000101, 0b00111100, 0b01000001] = .ok (.noteOff 5 60 65) := by decide
theorem test_decode_noteOn :
    decode .interpreter [0b10010001, 0b01001000, 0b01100100] = .ok (.noteOn 1 72 100) := by decide
theorem test_decode_aftertouch :
    decode .interpreter [0b10100011, 0b01000000, 0b01100100] = .ok (.aftertouch 3 64 100) := by decide
theorem test_decode_controller :
    decode .interpreter [0b10110001, 0b00000111, 0b01100100] = .ok (.controller 1 7 100) := by decide
theorem test_decode_programChange : decode .interpreter [0b11000010, 0b00000101] = .ok (.programChange 2 5) := by decide
theorem test_decode_channelPressure :
    decode .interpreter [0b11011111, 0b01111111] = .ok (.channelPressure 15 127) := by decide
theorem test_decode_pitchBend :
    decode .interpreter [0b11100011, 0b00000001, 0b01000000] = .ok (.pitchBend 3 1 64) := by decide
theorem test_decode_system : decode .interpreter [0b11111010] = .ok (.system 10) := by decide
theorem test_decode_status : decode .framer [0b10000000] = .ok (.status 128) := by decide
theorem test_decode_data : decode .framer [0b01111111] = .ok (.data 127) := by decide

/-- Rejected by name: R71, R108, R47. -/
theorem test_decode_rejects :
    decode .interpreter [] = .error (.message (.error .empty)) ∧
    decode .interpreter [0x7F, 1, 2] = .error (.message (.error (.unknownCommand 7))) ∧
    decode .interpreter [0xC2] = .error (.message (.error (.arityMismatch 1 0))) ∧
    decode .interpreter [0x90, 0x80, 0] = .error (.message .highDataByte) ∧
    decode .framer [0x90, 0x3C] = .error .notOneByte := by decide

/-- The table's words: byte 0 is the most significant (log 6). -/
theorem test_tableWord :
    decodeTableWord 24 0x91483E = some (.noteOn 1 72 62) ∧ decodeTableWord 16 0xC205 = some (.programChange 2 5) ∧
    decodeTableWord 8 0x90 = some (.status 0x90) ∧ decodeTableWord 8 0x3C = some (.data 0x3C) ∧
    decodeTableWord 8 0xFA = some (.system 10) ∧ decodeTableWord 8 0x190 = none := by decide

/-- A placed word runs in the very next step, as the first after reset. -/
theorem test_placed_message :
    (nextOf (step (State.reset.withFetchWord 24 0xE30040))).map State.port =
      some (some { raw := [0xE3, 0, 64], result := .ok {
        command := .pitchBend, channel := 3, raw := [0xE3, 0, 64]
        fields := [(.lsb, 0), (.msb, 64)], value := some 8192 } }) := by decide
theorem test_placed_byte : nextOf (step (State.reset.withFetchWord 8 0x90)) = some (holding [0x90]) := by decide

/-! ## The Interpreter -/

theorem test_noteOff_V10 : answered [0x80, 127, 127] = some (.ok {
    command := .noteOff, channel := 0, raw := [0x80, 127, 127]
    fields := [(.key, 127), (.velocity, 127)], value := none }) := by decide
theorem test_noteOn_V9 : answered [0x9F, 0, 0] = some (.ok {
    command := .noteOn, channel := 15, raw := [0x9F, 0, 0]
    fields := [(.key, 0), (.velocity, 0)], value := none }) := by decide
theorem test_aftertouch_V3 : answered [0xA3, 64, 100] = some (.ok {
    command := .aftertouch, channel := 3, raw := [0xA3, 64, 100]
    fields := [(.key, 64), (.touch, 100)], value := none }) := by decide
theorem test_controller_V4 : answered [0xB1, 7, 100] = some (.ok {
    command := .controller, channel := 1, raw := [0xB1, 7, 100]
    fields := [(.controller, 7), (.value, 100)], value := none }) := by decide
theorem test_programChange_V5 : answered [0xC2, 5] = some (.ok {
    command := .programChange, channel := 2, raw := [0xC2, 5], fields := [(.instrument, 5)], value := none }) := by decide
theorem test_channelPressure_V6 : answered [0xDF, 127] = some (.ok {
    command := .channelPressure, channel := 15, raw := [0xDF, 127]
    fields := [(.pressure, 127)], value := none }) := by decide
theorem test_pitchBend_V31 : answered [0xE0, 127, 127] = some (.ok {
    command := .pitchBend, channel := 0, raw := [0xE0, 127, 127]
    fields := [(.lsb, 127), (.msb, 127)], value := some 16383 }) := by decide
theorem test_system_V12 : answered [0xFF] = some (.ok {
    command := .system, channel := 15, raw := [0xFF], fields := [], value := none }) := by decide

/-- V34, V37, V38, V39, V41. -/
theorem test_bendValue : bendValue 0 1 = 128 ∧ bendValue 127 63 = 8191 ∧ bendValue 85 42 = 5461 ∧
    bendValue 42 85 = 10922 ∧ bendValue 64 0 = 64 := by decide

/-- V13, V14, V16, V17, V19b. -/
theorem test_arity :
    answered [0x90] = some (.err (.arityMismatch 2 0)) ∧
    answered [0x90, 60, 65, 62] = some (.err (.arityMismatch 2 3)) ∧
    answered [0xC2, 5, 6] = some (.err (.arityMismatch 1 2)) ∧
    answered [0xF1, 0x23] = some (.err (.arityMismatch 0 1)) ∧
    answered [0xD0, 1, 2, 3, 4, 5, 6, 7, 8, 9] = some (.err (.arityMismatch 1 9)) := by decide

/-- V20, V26, V27, V28; R108 (the arity error stands at bytes of 128 or more, the success path refuses). -/
theorem test_unknown_empty_domain :
    answered [0x00] = some (.err (.unknownCommand 0)) ∧ answered [] = some (.err .empty) ∧
    answered [0x40] = some (.err (.unknownCommand 4)) ∧ answered [0x7F, 1, 2] = some (.err (.unknownCommand 7)) ∧
    answered [0x90, 0x80] = some (.err (.arityMismatch 2 1)) ∧
    refusalOf (step (State.reset.withInput [.message [0x90, 0x80, 0]])) = some .outOfDomain := by decide

/-! ## The Framer -/

/-- V50, V53. -/
theorem test_status_V53 :
    cycled (byteCycle 0x90) (holding []) = some (holding [0x90]) ∧
    cycled (byteCycle 0x90) (holding [0x3C, 0x41]) = some { holding [0x90] with
      port := some { raw := [0x3C, 0x41], result := .err (.unknownCommand 3) } } := by decide
/-- V58, V67: a clock byte cuts a message; a full buffer is closed without a fault. -/
theorem test_status_V58_V67 :
    cycled (byteCycle 0xF8) (holding [0x90, 60]) = some { holding [0xF8] with
      port := some { raw := [0x90, 60], result := .err (.arityMismatch 2 1) } } ∧
    (cycled (byteCycle 0x80) (holdingWith (some 3) false [0x90, 60, 65])).map (fun t => (t.buf, t.fault)) =
      some ([0x80], false) := by decide
/-- V52, V59. -/
theorem test_data_V52_V59 :
    cycled (byteCycle 0x41) (holding [0x3C]) = some (holding [0x3C, 0x41]) ∧
    cycled (byteCycle 0x7F) (holding [0x90]) = some (holding [0x90, 0x7F]) := by decide
/-- V66, V68. -/
theorem test_data_V66_V68 :
    cycled (byteCycle 62) (holdingWith (some 3) false [0x90, 60, 65]) = some faultState ∧
    cycled (byteCycle 65) (holdingWith (some 3) false [0x90, 60]) =
      some (holdingWith (some 3) false [0x90, 60, 65]) := by decide
/-- V60, V61, V62. -/
theorem test_end_V60_V61_V62 :
    cycled (endCycle .eos) (holding [0x80, 60, 0]) = some { holding [0x80, 60, 0] with fatal := true } ∧
    cycled (endCycle .eos) (holdingWith none true [0x80, 60, 0]) = some { holdingWith none true [] with
      fatal := true
      port := some { raw := [0x80, 60, 0], result := .ok {
        command := .noteOff, channel := 0, raw := [0x80, 60, 0]
        fields := [(.key, 60), (.velocity, 0)], value := none } } } ∧
    cycled (endCycle .err) (holdingWith none true [0x80, 60, 0]) = some { holdingWith none true [0x80, 60, 0] with
      fatal := true, fatalCause := .err } := by decide
/-- V63, V64. -/
theorem test_end_V63_V64 :
    cycled (endCycle .eos) (holdingWith none true []) = some { holdingWith none true [] with fatal := true } ∧
    (cycled (endCycle .eos) (holdingWith none true [0x40])).map (fun t => (t.port, t.buf)) =
      some (some { raw := [0x40], result := .err (.unknownCommand 4) }, []) := by decide
/-- R25, R26: a message given directly to a stopped block is not answered. -/
theorem test_stopped_message :
    nextOf (step (fatalState.withInput [.message [0xC2, 5]])) = some fatalState ∧
    nextOf (step (faultState.withInput [.message [0x90]])) = some faultState ∧
    nextOf (exec (.system 8) fatalState) = some fatalState := by decide
/-- V65, and the stopped fault of the operations (R81, R91). -/
theorem test_stopped_V65 :
    cycled (byteCycle 0x90) fatalState = some fatalState ∧ cycled (byteCycle 0x90) faultState = some faultState ∧
    faultOf (exec (.status 0x90) fatalState) = some .stopped ∧
    faultOf (exec (.data 0) faultState) = some .stopped := by decide

/-! ## Cycles -/

/-- V70, V71, V72, V73. -/
theorem test_reset_V70_to_V73 :
    cycled resetCycle (holding [0x90, 60]) = some (holding []) ∧ cycled resetCycle fatalState = some State.reset ∧
    cycled resetCycle faultState = some (holdingWith (some 3) false []) ∧
    cycled { byteCycle 0x90 with rst := true } (holding []) = some State.reset := by decide
/-- R57: the sink is not ready, nothing is offered, no input is left. -/
theorem test_wait :
    cycled { byteCycle 0x90 with sinkReady := false } (holding [0x3C]) = some (holding [0x3C]) ∧
    cycled idleCycle (holding [0x3C]) = some (holding [0x3C]) ∧
    nextOf (step (holding [0x3C])) = some (holding [0x3C]) := by decide
/-- R32. -/
theorem test_multiHot :
    refusalOf (step (State.reset.withInput [.cycle { byteCycle 0x90 with srcEos := true }])) = some .multiHot ∧
    refusalOf (step (State.reset.withInput [.cycle { endCycle .eos with srcErr := true }])) = some .multiHot := by decide

/-! ## Ports -/

/-- V75, V76. -/
theorem test_ports_V75_V76 :
    (interpret [0x90, 60, 65]).map (resultPort 8) = some { EventPort.zero 8 with
      evValid := true, evKind := 9, evNf := 2, evF0 := 60, evF1 := 65 } ∧
    (interpret [0xE3, 0, 64]).map (resultPort 8) = some { EventPort.zero 8 with
      evValid := true, evKind := 14, evChannel := 3, evNf := 2, evF0 := 0, evF1 := 64
      evValueValid := true, evValue := 8192 } := by decide
/-- V77, V78, V79, V80. -/
theorem test_ports_V77_to_V80 :
    (interpret [0x90, 60]).map (resultPort 8) = some { EventPort.zero 8 with
      evValid := true, evStatus := 3, evExpected := 2, evActual := 1 } ∧
    (interpret [0x40, 0x7F]).map (resultPort 8) = some { EventPort.zero 8 with
      evValid := true, evStatus := 2, evKind := 4 } ∧
    (interpret [0xC2, 5]).map (resultPort 8) = some { EventPort.zero 8 with
      evValid := true, evKind := 12, evChannel := 2, evNf := 1, evF0 := 5 } ∧
    (interpret [0xFE]).map (resultPort 8) = some { EventPort.zero 8 with
      evValid := true, evKind := 15, evChannel := 14 } := by decide
/-- R33: the bytes beyond the message are 0. -/
theorem test_rawPort :
    rawPort 3 (some 4) (some { raw := [0xC2, 5], result := .err .empty }) =
      { msgValid := true, msgLen := 2, msgByte := [0xC2, 5, 0, 0] } := by decide

/-- V60, V62, V66: what the level outputs show. -/
theorem test_levels :
    (cycled (endCycle .eos) (holding [0x80, 60, 0])).map levelPort = some { fatal := 1, fatalCause := 0, fault := 0 } ∧
    (cycled (endCycle .err) (holding [0x80, 60, 0])).map levelPort = some { fatal := 1, fatalCause := 1, fault := 0 } ∧
    (cycled (byteCycle 62) (holdingWith (some 3) false [0x90, 60, 65])).map levelPort =
      some { fatal := 0, fatalCause := 0, fault := 1 } := by decide

/-! ## Runs -/

/-- R172: an `End` before the last event is no run. -/
theorem test_onlyLastEnds :
    onlyLastEnds [.byte 0xFA, .ended .eos] = true ∧ onlyLastEnds [.ended .eos, .byte 0xFA] = false ∧
    onlyLastEnds [.ended .err, .ended .eos] = false := by decide

/-- R172: neither a prefix nor a fault is an end. -/
theorem test_endsSafely :
    endsSafely (.next ([], holding [0x90])) = false ∧ endsSafely (.next ([], fatalState)) = true ∧
    endsSafely (.next ([], faultState)) = false := by decide

/-! ## Witnesses: values that meet all hypotheses of a statement together -/

/-- A buffer no Framer run builds: a status byte in a data position. -/
def strangeState : State := holding [0x90, 0x80, 0]

theorem witness_DecodeOfEncode :
    [Instr.noteOff 15 127 0, .noteOn 0 0 127, .aftertouch 1 2 3, .controller 15 127 127, .programChange 15 127,
      .channelPressure 0 0, .pitchBend 8 127 1, .system 15, .status 0x80, .status 0xFF, .data 0, .data 0x7F].all
      Instr.wellFormed = true := by decide
theorem witness_EncodeOfDecode :
    decode .framer [0x7F] = .ok (.data 0x7F) ∧ decode .framer [0x80] = .ok (.status 0x80) ∧
    decode .interpreter [0xBF, 127, 127] = .ok (.controller 15 127 127) := by decide
theorem witness_TableWordOfEncode :
    (Instr.status 0xEF).wellFormed = true ∧ (Instr.status 0xF0).wellFormed = true ∧
    decodeTableWord 8 (tableWordOf (encode (.status 0xEF))) = some (.status 0xEF) ∧
    decodeTableWord 8 (tableWordOf (encode (.status 0xF0))) = some (.system 0) := by decide
theorem witness_ByteClassSelectsOperation :
    (holding [0x90]).stopped = false ∧ (127 : Byte).getLsbD 7 = false ∧ (128 : Byte).getLsbD 7 = true := by decide
theorem witness_MessageRunsItsCommand : decode .interpreter [0xC2, 5] = .ok (.programChange 2 5) := by decide
theorem witness_PlacedWordRunsNext :
    decodeTableWord 24 0x80007F = some (.noteOff 0 0 127) ∧ decodeTableWord 8 0xEF = some (.status 0xEF) ∧
    decodeTableWord 8 0xF0 = some (.system 0) ∧ decodeTableWord 8 0x7F = some (.data 0x7F) ∧
    State.reset.stopped = false := by decide
theorem witness_FramerDispatch :
    (byteCycle 127).rst = false ∧ (byteCycle 127).sinkReady = true ∧ (byteCycle 127).offered = [.byte 127] ∧
    (byteCycle 128).offered = [.byte 128] ∧ (endCycle .eos).offered = [.ended .eos] ∧
    (endCycle .err).offered = [.ended .err] ∧ (endCycle .err).rst = false ∧ (endCycle .err).sinkReady = true ∧
    fatalState.stopped = true ∧ State.reset.stopped = false := by decide
/-- The second clause: two different running states with one buffer. -/
theorem witness_FramerDispatch_sameBuffer :
    (holding [0x40]).stopped = false ∧
    ({ holding [0x40] with fatalCause := .err, input := [.cycle idleCycle] } : State).stopped = false ∧
    ({ holding [0x40] with fatalCause := .err, input := [.cycle idleCycle] } : State).buf = (holding [0x40]).buf ∧
    (cycled (byteCycle 127) (holding [0x40])).isSome = true ∧ (cycled (byteCycle 128) (holding [0x40])).isSome = true ∧
    (cycled (endCycle .err) (holding [0x40])).isSome = true := by decide

/-- The first clause of each of the eight command statements. -/
theorem witness_commandRuns : (holding [0x90]).stopped = false ∧ State.reset.stopped = false := by decide

/-- The second clause of each of the eight command statements: the first and last status byte of the kind, at the
lengths beside the right one. -/
theorem witness_commandArity :
    [(0x80, 8), (0x8F, 8), (0x90, 9), (0x9F, 9), (0xA0, 10), (0xAF, 10), (0xB0, 11), (0xBF, 11), (0xC0, 12), (0xCF, 12),
      (0xD0, 13), (0xDF, 13), (0xE0, 14), (0xEF, 14), (0xF0, 15), (0xFF, 15)].all
        (fun x : Byte × Nat => decide (x.1.toNat / 16 = x.2)) = true ∧
    ([1] : List Byte).length ≠ 2 ∧ ([1, 2, 3] : List Byte).length ≠ 2 ∧ ([] : List Byte).length ≠ 1 ∧
    ([1, 2] : List Byte).length ≠ 1 ∧ ([1] : List Byte).length ≠ 0 := by decide

/-- Both sides of the equivalence, at 127 and 128. -/
theorem witness_DomainOfTheInterpreter :
    (nextOf (step (State.reset.withInput [.message [0x90, 127, 127]]))).isSome = true ∧
    refusalOf (step (State.reset.withInput [.message [0x90, 127, 128]])) = some .outOfDomain ∧
    refusalOf (step (State.reset.withInput [.message [0xC0, 128]])) = some .outOfDomain := by decide
theorem witness_ResultByFirstByteAndLength :
    [[0x80, 0, 127], [0xBF, 0, 127], [0xE0, 0, 127], [0xEF, 127, 0], [0xC0, 127], [0xDF, 0]].all dataAfterFirst = true ∧
    answered [0x7F, 0x80] = some (.err (.unknownCommand 7)) ∧ answered [0xBF, 128] = some (.err (.arityMismatch 2 1)) ∧
    answered [0xEF] = some (.err (.arityMismatch 2 0)) ∧ answered [0xDF, 128, 0] = some (.err (.arityMismatch 1 2)) ∧
    answered [0xFF, 0xFF] = some (.err (.arityMismatch 0 1)) ∧
    (answered [0xF0]).map (fun r => match r with | .ok e => some e.fields | .err _ => none) = some (some []) := by decide
theorem witness_EmptyAndUnknownAnswered :
    (127 : Byte).toNat ≤ 127 ∧ answered [127, 0x90, 1] = some (.err (.unknownCommand 7)) ∧
    ¬ (128 : Byte).toNat ≤ 127 ∧ answered [128] = some (.err (.arityMismatch 2 0)) := by decide
theorem witness_InterpreterIsStateless :
    (holding [0x90]).stopped = false ∧ State.reset.stopped = (holding [0x90]).stopped ∧
    fatalState.stopped = faultState.stopped ∧
    (nextOf (step (faultState.withInput [.message [0xF8]]))).isSome = true ∧
    nextOf (step ((holding [0x90]).withInput [.message [0xF8], .cycle idleCycle])) = some { holding [0x90] with
      port := some { raw := [0xF8], result := .ok {
        command := .system, channel := 8, raw := [0xF8], fields := [], value := none } }
      input := [.cycle idleCycle] } := by decide
theorem witness_ReadsOnlyFirstThreeBytes :
    ([0x90, 1, 2, 3] : RawMessage).length = ([0x90, 0xFF, 9, 0] : RawMessage).length ∧
    interpret [0x90, 1, 2, 3] = some (.err (.arityMismatch 2 3)) ∧
    ([0xE0, 1, 2] : RawMessage)[0]? = ([0xE0, 1, 2] : RawMessage)[0]? ∧
    (interpret [0xE0, 1, 2]).map (fun r => match r with | .ok e => e.value | .err _ => none) =
      some (some 257) := by decide
theorem witness_BendValueIsABijection : bendValue 127 127 = 0x3FFF ∧ bendValue 0 0 = 0 := by decide
theorem witness_ClosedCommandIsPresented :
    (Instr.pitchBend 15 127 127).level = .interpreter ∧ (holding [0xEF, 127, 127]).stopped = false ∧
    (holding [0xEF, 127, 127]).buf = encode (.pitchBend 15 127 127) ∧
    (Instr.system 0).level = .interpreter ∧ (holding [0xF0]).buf = encode (.system 0) := by decide

theorem witness_StatusClosesTheMessage :
    128 ≤ (128 : Byte).toNat ∧ (holding []).stopped = false ∧ (shapeOf (holding []).buf).isSome = true ∧
    (holding []).buf = [] ∧ (shapeOf [0x90, 127]).isSome = true ∧ (shapeOf [127, 0]).isSome = true ∧
    (holding [127, 0]).stopped = false ∧ (holding [127, 0]).buf ≠ [] := by decide
theorem witness_StatusStops :
    fatalState.stopped = true ∧ faultState.stopped = true ∧ strangeState.stopped = false ∧ strangeState.buf ≠ [] ∧
    interpret strangeState.buf = none := by decide
theorem witness_DataAppendsOrOverflows :
    (127 : Byte).toNat ≤ 127 ∧ (holdingWith (some 3) false [0x90, 60]).stopped = false ∧
    (holdingWith (some 3) false [0x90, 60]).params.msgCap ≠ some (holdingWith (some 3) false [0x90, 60]).buf.length ∧
    (holdingWith (some 3) false [0x90, 60, 65]).stopped = false ∧
    (holdingWith (some 3) false [0x90, 60, 65]).params.msgCap =
      some (holdingWith (some 3) false [0x90, 60, 65]).buf.length := by decide
theorem witness_EndOfStreamIsFatal :
    (holdingWith none true [0x40]).stopped = false ∧ (shapeOf (holdingWith none true [0x40]).buf).isSome = true ∧
    (holdingWith none true [0x40]).params.eosFlush = true ∧ (holdingWith none true [0x40]).buf ≠ [] ∧
    (holding [0x40]).stopped = false ∧ (shapeOf (holding [0x40]).buf).isSome = true ∧
    ¬ ((holding [0x40]).params.eosFlush = true ∧ Cause.eos = .eos ∧ (holding [0x40]).buf ≠ []) ∧
    ¬ ((holdingWith none true [0x40]).params.eosFlush = true ∧ Cause.err = .eos ∧
      (holdingWith none true [0x40]).buf ≠ []) ∧
    ¬ ((holdingWith none true []).params.eosFlush = true ∧ Cause.eos = .eos ∧
      (holdingWith none true []).buf ≠ []) := by decide
theorem witness_FramerTransitions :
    [([], Shape.empty), ([127], .garbage), ([128], .message)].all (fun x : List Byte × Shape =>
      decide ((holding x.1).stopped = false ∧ shapeOf (holding x.1).buf = some x.2) &&
      ((cycled (byteCycle 127) (holding x.1)).map State.fault == some false) &&
      ((cycled (byteCycle 128) (holding x.1)).map State.fault == some false) &&
      (cycled (endCycle .eos) (holding x.1)).isSome) = true := by decide
theorem witness_StoppedUntilReset :
    fatalState.stopped = true ∧ faultState.stopped = true ∧ idleCycle.rst = false ∧ (byteCycle 0x90).rst = false ∧
    idleCycle.offered.length ≤ 1 ∧ (byteCycle 0x90).offered.length ≤ 1 := by decide
theorem witness_OnlyClosingPresents :
    ((cycled (byteCycle 128) (holding [127])).bind State.port).isSome = true ∧
    ((cycled (endCycle .eos) (holdingWith none true [127])).bind State.port).isSome = true := by decide

theorem witness_EventTakenExactlyWhenReady :
    (byteCycle 0).offered = [.byte 0] ∧ (byteCycle 0).rst = false ∧ State.reset.srcReady (byteCycle 0) = true ∧
    ({ byteCycle 0 with sinkReady := false } : CycleIn).offered = [.byte 0] ∧
    State.reset.srcReady { byteCycle 0 with sinkReady := false } = false ∧
    fatalState.srcReady (byteCycle 0) = false ∧ faultState.srcReady (byteCycle 0) = false ∧
    State.reset.srcReady { byteCycle 0 with rst := true } = false ∧
    idleCycle.offered = [] ∧ (holding [0x90]).srcReady idleCycle = true := by decide
theorem witness_WaitingChangesNothing :
    idleCycle.rst = false ∧ idleCycle.srcValid = false ∧ idleCycle.srcEos = false ∧ idleCycle.srcErr = false ∧
    (byteCycle 0).rst = false ∧ (byteCycle 0).offered.length = 1 ∧ fatalState.srcReady (byteCycle 0) = false := by decide
theorem witness_MultiHotCycleRefused :
    ({ byteCycle 0 with srcErr := true } : CycleIn).rst = false ∧
    refusalOf (step (State.reset.withInput [.cycle { byteCycle 0 with srcErr := true }])) = some .multiHot ∧
    refusalOf (step (State.reset.withInput [.cycle (byteCycle 0)])) = none ∧
    ({ byteCycle 0 with srcErr := true, rst := true } : CycleIn).rst = true := by decide
theorem witness_ResetCycleRestoresReset :
    resetCycle.rst = true ∧ resetCycle.offered.length ≤ 1 ∧ fatalState.stopped = true ∧
    (cycled resetCycle fatalState).map State.stopped = some false ∧
    (cycled resetCycle faultState).map State.stopped = some false := by decide

/-- A state in which every field of the invariant says something: a full finite buffer, stopped by overflow. -/
theorem witness_Inv_fault : faultState.Inv where
  params_wf := by decide
  buf_shape := by decide
  buf_fits := by intro n h; cases h; decide
  fault_full := by decide
  one_stop := by decide
  cause_reset := by decide
  port_answers := by intro e h; cases h
theorem witness_Inv_running : (holdingWith (some 3) true [0x90, 60]).Inv where
  params_wf := by decide
  buf_shape := by decide
  buf_fits := by intro n h; cases h; decide
  fault_full := by decide
  one_stop := by decide
  cause_reset := by decide
  port_answers := by intro e h; cases h
theorem inv_withInput {s : State} (h : s.Inv) (input : List Input) : (s.withInput input).Inv :=
  ⟨h.params_wf, h.buf_shape, h.buf_fits, h.fault_full, h.one_stop, h.cause_reset, h.port_answers⟩
theorem witness_InvariantKeptByStep :
    ((holdingWith (some 3) true [0x90, 60]).withInput [.cycle (byteCycle 0x80)]).Inv ∧
    (nextOf (step ((holdingWith (some 3) true [0x90, 60]).withInput [.cycle (byteCycle 0x80)]))).isSome = true :=
  ⟨inv_withInput witness_Inv_running _, by decide⟩
theorem witness_InvariantAtReset :
    Params.wf { msgCap := some 3, eosFlush := true } = true ∧ Params.wf { msgCap := none, eosFlush := false } = true ∧
    Params.wf { msgCap := some 2, eosFlush := false } = false := by decide
theorem witness_StopFlagsSetAndCleared :
    fatalState.fatal = true ∧ (cycled resetCycle fatalState).map State.fatal = some false ∧
    faultState.fault = true ∧ (cycled resetCycle faultState).map State.fault = some false ∧
    (holding []).fatal = false ∧ (cycled (endCycle .err) (holding [])).map State.fatal = some true ∧
    (holdingWith (some 3) false [0x90, 60, 65]).fault = false ∧
    (cycled (byteCycle 62) (holdingWith (some 3) false [0x90, 60, 65])).map State.fault = some true ∧
    (cycled (byteCycle 62) fatalState).map State.fatal = some true := by decide
theorem witness_StepStopsOnlyWhereRefused :
    (faultState.withInput [.cycle { byteCycle 0 with srcEos := true }]).Inv ∧
    refusalOf (step (faultState.withInput [.cycle { byteCycle 0 with srcEos := true }])) = some .multiHot ∧
    (faultState.withInput [.message [0xC0, 128]]).Inv ∧
    refusalOf (step (faultState.withInput [.message [0xC0, 128]])) = some .outOfDomain :=
  ⟨inv_withInput witness_Inv_fault _, by decide, inv_withInput witness_Inv_fault _, by decide⟩
theorem witness_StepConsumesOneInput :
    (nextOf (step (State.reset.withInput [.cycle idleCycle, .message []]))).map State.input = some [.message []] ∧
    (nextOf (step State.reset)).map State.input = some [] := by decide

theorem witness_RunIsFramePrefix :
    State.reset.stopped = false ∧ State.reset.buf = [] ∧ State.reset.params.msgCap = none := by decide
theorem witness_NoByteIsLost :
    (holding [127]).stopped = false ∧ seen (observeBytes (holding [127]) [0x90, 60, 0x80]) =
      some ([[127], [0x90, 60]], [0x80], false) := by decide
theorem witness_OutputCount :
    State.reset.stopped = false ∧ State.reset.buf = [] ∧
    seen (observeBytes State.reset [0x90, 60, 0x80]) = some ([[0x90, 60]], [0x80], false) ∧
    seen (observeBytes State.reset [60, 0x80]) = some ([[60]], [0x80], false) := by decide
theorem witness_OneMessageIsOneEmission :
    (holdingWith (some 3) true []).stopped = false ∧ (holdingWith (some 3) true []).buf = [] ∧
    128 ≤ (128 : Byte).toNat ∧ (∀ d ∈ ([0, 127] : List Byte), d.toNat ≤ 127) ∧
    (holdingWith (some 3) true []).params.msgCap = some 3 ∧ ([0, 127] : List Byte).length + 1 ≤ 3 ∧
    (holdingWith (some 3) true []).params.eosFlush = true := by decide
theorem witness_ConsecutiveStatusBytes :
    State.reset.stopped = false ∧ State.reset.buf = [] ∧
    ∀ b ∈ ([0x80, 0xFF] ++ [0xF8] : List Byte), 128 ≤ b.toNat := by decide
theorem witness_ErrorsOfTheComposedBlock :
    State.reset.stopped = false ∧ State.reset.buf = [] ∧
    seen (observeBytes State.reset [127, 0x80, 0x90]) = some ([[127], [0x80]], [0x90], false) ∧
    interpret [127] = some (.err (.unknownCommand 7)) := by decide
theorem witness_ChunkingIsInvisible :
    waitingCycle (.cycle idleCycle) = true ∧
    waitingCycle (.cycle { byteCycle 0 with sinkReady := false }) = true ∧
    waitingCycle (.cycle (byteCycle 0)) = false ∧ waitingCycle (.cycle resetCycle) = false ∧
    seen (observeInputs State.reset [.cycle (byteCycle 0x90), .cycle idleCycle, .cycle (byteCycle 0x80)]) =
      some ([[0x90]], [0x80], false) := by decide
theorem witness_LongMessageFaults :
    (holdingWith (some 3) false []).stopped = false ∧ (holdingWith (some 3) false []).buf = [] ∧
    (holdingWith (some 3) false []).params.msgCap = some 3 ∧ 1 ≤ 3 ∧ 128 ≤ (0xF0 : Byte).toNat ∧
    (∀ d ∈ ([1, 2, 127] : List Byte), d.toNat ≤ 127) ∧ 3 - 1 < ([1, 2, 127] : List Byte).length := by decide

theorem witness_EventPortSignals :
    interpret [] = some (.err .empty) ∧ interpret [127] = some (.err (.unknownCommand 7)) ∧
    interpret [0xDF] = some (.err (.arityMismatch 1 0)) ∧ (interpret [0xEF, 127, 127]).isSome = true ∧
    (interpret [0xFF]).isSome = true := by decide
/-- `2^LEN_W = 4 > MSG_CAP = 3`, the narrowest `LEN_W` for the smallest `MSG_CAP`. -/
theorem witness_CountSignalsDoNotWrap :
    (holdingWith (some 3) true [0x90, 60]).Inv ∧
    (holdingWith (some 3) true [0x90, 60]).params.msgCap = some 3 ∧ 3 < 2 ^ 2 ∧
    ((cycled (byteCycle 0x80) (holdingWith (some 3) true [0x90, 60])).bind State.port).isSome = true :=
  ⟨witness_Inv_running, by decide⟩

theorem witness_LevelOutputsShowFlags :
    (holdingWith none true [0x40]).stopped = false ∧ (shapeOf (holdingWith none true [0x40]).buf).isSome = true ∧
    (holdingWith (some 3) false [0x90, 60, 65]).stopped = false ∧ (127 : Byte).toNat ≤ 127 ∧
    (holdingWith (some 3) false [0x90, 60, 65]).params.msgCap =
      some (holdingWith (some 3) false [0x90, 60, 65]).buf.length ∧
    resetCycle.rst = true ∧ resetCycle.offered.length ≤ 1 := by decide
/-- A status byte that closes, a byte that is not taken, and an end that flushes. -/
theorem witness_AcceptedBytesConserved :
    (byteCycle 128).rst = false ∧ (cycled (byteCycle 128) (holding [0x90, 60])).map State.fault = some false ∧
    ([[127]] : List RawMessage).flatten ++ (holding [0x90, 60]).buf = [127, 0x90, 60] ∧
    (cycled (byteCycle 127) fatalState).map State.fault = some false ∧ (endCycle .eos).rst = false ∧
    (cycled (endCycle .eos) (holdingWith none true [0x40])).map State.fault = some false := by decide

/-- Runs that wait, end, and fault. -/
def waitingRun : Run := ⟨{ msgCap := none, eosFlush := false }, [.byte 0x90], rfl, rfl⟩
def endedRun : Run := ⟨{ msgCap := some 3, eosFlush := true }, [.byte 0xFA, .ended .eos], rfl, rfl⟩
def faultedRun : Run := ⟨{ msgCap := some 3, eosFlush := true }, [.byte 0, .byte 1, .byte 2, .byte 3], rfl, rfl⟩

/-- How a run stands, if it completes. -/
def standing (r : Run) : Option RunStatus :=
  match r.observe with
  | .next o => some o.status
  | .fault _ => none
  | .refused _ => none

theorem witness_RunsObserved :
    standing waitingRun = some .waiting ∧ standing endedRun = some (.ended .eos) ∧
    standing faultedRun = some .faulted := by decide

theorem witness_StoppedBlockPresentsNothing :
    fatalState.stopped = true ∧ faultState.stopped = true ∧
    (nextOf (step (fatalState.withInput [.message [0xF8]]))).isSome = true ∧
    (nextOf (step (faultState.withInput [.cycle resetCycle]))).isSome = true ∧
    (Instr.noteOff 0 60 0).level = .interpreter ∧ (Instr.system 15).level = .interpreter := by decide

end Sys2Proof.Tests
end

section
/-! The handshake of a clock cycle, and what one cycle makes visible (R53, R56, R57). -/

namespace Sys2Proof.Machine

/-! ## A clock cycle, case by case -/

/-- A step whose oldest entry is a clock cycle runs that cycle on the state whose input has moved past it. -/
@[simp] theorem step_cycle (s : State) (c : CycleIn) (rest : List Input) :
    step (s.withInput (.cycle c :: rest)) = runCycle c (s.withInput rest) := rfl

theorem runCycle_of_offered_nil {c : CycleIn} (hrst : c.rst = false) (hoff : c.offered = []) (s : State) :
    runCycle c s = .next s.hold := by
  simp [runCycle, hrst, hoff]

theorem runCycle_of_offered_singleton {c : CycleIn} {ev : InputEvent} (hrst : c.rst = false) (hoff : c.offered = [ev])
    (s : State) : runCycle c s = if s.srcReady c then runEvent ev s else .next s.hold := by
  simp [runCycle, hrst, hoff]

theorem offered_eq_nil {c : CycleIn} :
    c.offered = [] ↔ c.srcValid = false ∧ c.srcEos = false ∧ c.srcErr = false := by
  simp [CycleIn.offered]

/-! ## What the handshake reads of the state -/

theorem State.srcReady_eq_true {s : State} {c : CycleIn} :
    s.srcReady c = true ↔ s.fatal = false ∧ s.fault = false ∧ c.rst = false ∧ c.sinkReady = true := by
  simp [State.srcReady, and_assoc]

@[simp] theorem State.srcReady_withInput (s : State) (rest : List Input) (c : CycleIn) :
    (s.withInput rest).srcReady c = s.srcReady c := rfl

/-- A cycle without a transfer, on a state whose input has moved past it: only the port and the input differ (R57). -/
theorem State.hold_withInput (s : State) (rest : List Input) :
    (s.withInput rest).hold = { s with port := none, input := rest } := rfl

/-! ## What each Framer operation presents -/

/-- `e` is the whole non-empty buffer of `s` with the Interpreter's result for it. -/
def AnswersBuffer (s : State) (e : Emission) : Prop :=
  e.raw = s.buf ∧ s.buf ≠ [] ∧ interpret s.buf = some e.result

theorem emit_port {s t : State} {e : Emission} (h : emit s = .next t) (hp : t.port = some e) : AnswersBuffer s e := by
  obtain ⟨-, rfl⟩ | ⟨hbuf, r, hr, rfl⟩ := emit_next h
  · simp at hp
  · obtain rfl : { raw := s.buf, result := r } = e := by simpa using hp
    exact ⟨rfl, hbuf, hr⟩

theorem execStatus_port {b : Byte} {s t : State} {e : Emission} (h : execStatus b s = .next t)
    (hp : t.port = some e) : s.stopped = false ∧ AnswersBuffer s e ∧ t.buf = [b] := by
  obtain ⟨hrun, u, hu, rfl⟩ := execStatus_next h
  exact ⟨hrun, emit_port hu hp, rfl⟩

/-- DATA presents nothing, whether it stores its byte or overflows. -/
theorem execData_port {b : Byte} {s t : State} (h : execData b s = .next t) : t.port = none := by
  obtain ⟨-, ⟨-, rfl⟩ | ⟨-, rfl⟩⟩ := execData_next h
  · rfl
  · rfl

theorem execEnd_port {cause : Cause} {s t : State} {e : Emission} (h : execEnd cause s = .next t)
    (hp : t.port = some e) :
    s.stopped = false ∧ AnswersBuffer s e ∧ cause = .eos ∧ s.params.eosFlush = true ∧ t.buf = [] ∧ t.fatal = true := by
  obtain ⟨hrun, ⟨hflush, hcause, u, hu, rfl⟩ | ⟨-, rfl⟩⟩ := execEnd_next h
  · exact ⟨hrun, emit_port hu hp, hcause, hflush, rfl, rfl⟩
  · simp at hp

/-- The class of a byte selects the Framer operation (R60, R81). -/
theorem runEvent_byte (b : Byte) (s : State) :
    runEvent (.byte b) s = if 128 ≤ b.toNat then execStatus b s else execData b s := by
  by_cases hb : 128 ≤ b.toNat <;> simp [runEvent, decodeByte, isStatusByte, hb, exec]

/-- An event that presents something closes the buffer: it is a status byte, or an end of the stream that flushes. -/
theorem runEvent_port {ev : InputEvent} {s t : State} {e : Emission} (h : runEvent ev s = .next t)
    (hp : t.port = some e) :
    s.stopped = false ∧ AnswersBuffer s e ∧
      ((∃ b, ev = .byte b ∧ 128 ≤ b.toNat ∧ t.buf = [b]) ∨
       (ev = .ended .eos ∧ s.params.eosFlush = true ∧ t.buf = [] ∧ t.fatal = true)) := by
  cases ev with
  | byte b =>
    rw [runEvent_byte] at h
    split at h
    · next hb =>
      obtain ⟨hrun, hans, hbuf⟩ := execStatus_port h hp
      exact ⟨hrun, hans, .inl ⟨b, rfl, hb, hbuf⟩⟩
    · simp [execData_port h] at hp
  | ended cause =>
    obtain ⟨hrun, hans, rfl, hend⟩ := execEnd_port h hp
    exact ⟨hrun, hans, .inr ⟨rfl, hend⟩⟩

/-! ## The obligations -/

/-- Settles O32: a reset and a cycle without a transfer present nothing, and an event that presents closes the
buffer. -/
theorem onlyClosingPresents : Obligations.OnlyClosingPresents := by
  intro s t c rest e h hp
  rw [step_cycle] at h
  obtain ⟨-, rfl⟩ | ⟨-, rfl, -⟩ | ⟨-, ev, hoff, -, hev⟩ := runCycle_next h
  · simp at hp
  · simp at hp
  · obtain ⟨hrun, ⟨hraw, hbuf, hres⟩, hcloses⟩ := runEvent_port hev hp
    exact ⟨hrun, hraw, hbuf, hres, by simpa [hoff] using hcloses⟩

/-- Settles O33: `src_ready` is its four conditions, and a cycle that offers one event is decided by it. -/
theorem eventTakenExactlyWhenReady : Obligations.EventTakenExactlyWhenReady := by
  intro s c
  refine ⟨State.srcReady_eq_true, fun ev rest hoff hrst => ?_⟩
  rw [step_cycle, runCycle_of_offered_singleton hrst hoff, State.srcReady_withInput, State.hold_withInput]

/-- Settles O34: with nothing offered, or one event offered and not taken, the cycle holds. -/
theorem waitingChangesNothing : Obligations.WaitingChangesNothing := by
  intro s c rest hrst hwait
  rw [step_cycle]
  obtain hnone | ⟨hone, hready⟩ := hwait
  · rw [runCycle_of_offered_nil hrst (offered_eq_nil.mpr hnone), State.hold_withInput]
  · obtain ⟨ev, hoff⟩ := List.length_eq_one_iff.mp hone
    simp [runCycle_of_offered_singleton hrst hoff, hready, State.hold_withInput]

end Sys2Proof.Machine
end

section
/-! The class of an input byte selects the Framer operation, and the step runs it (R60, R81). -/

namespace Sys2Proof.Machine

/-- Bit 7 of a byte is its class (R40, R60). -/
theorem getLsbD_seven_eq_isStatusByte (b : Byte) : b.getLsbD 7 = isStatusByte b :=
  calc b.getLsbD 7
    _ = b.msb := (BitVec.msb_eq_getLsbD_last b).symm
    _ = isStatusByte b := BitVec.msb_eq_decide b

/-- The decoder's choice of operation, read from bit 7. -/
theorem decodeByte_eq_bit_seven (b : Byte) : decodeByte b = if b.getLsbD 7 then .status b else .data b := by
  rw [getLsbD_seven_eq_isStatusByte, decodeByte]

/-- A running block is ready for a byte that is offered while the sink is ready (R56). -/
theorem State.srcReady_byteCycle {s : State} (h : s.stopped = false) (b : Byte) : s.srcReady (byteCycle b) = true := by
  obtain ⟨hfatal, hfault⟩ := s.stopped_eq_false.mp h
  exact State.srcReady_eq_true.mpr ⟨hfatal, hfault, rfl, rfl⟩

/-- A running block takes an offered byte and runs the operation it decodes to (R56, R81). -/
theorem runCycle_byteCycle {s : State} (h : s.stopped = false) (b : Byte) :
    runCycle (byteCycle b) s = exec (decodeByte b) s := by
  rw [runCycle_of_offered_singleton (ev := .byte b) rfl rfl, if_pos (State.srcReady_byteCycle h b), runEvent]

/-- Settles O6: the cycle runs the decoded byte, and the decoder's class is bit 7. -/
theorem byteClassSelectsOperation : Obligations.ByteClassSelectsOperation := by
  intro s b rest hrun
  have hmoved : (s.withInput rest).stopped = false := hrun
  refine ⟨?_, ?_⟩
  · rw [step_cycle, runCycle_byteCycle hmoved, decodeByte_eq_bit_seven]
  · rw [getLsbD_seven_eq_isStatusByte, isStatusByte, decide_eq_true_eq]

end Sys2Proof.Machine
end

section
/-! What STATUS, DATA and END do in a running block, one equation per case (R82 to R85). -/

namespace Sys2Proof.Machine

@[simp] theorem exec_status (b : Byte) (s : State) : exec (.status b) s = execStatus b s := rfl

@[simp] theorem exec_data (b : Byte) (s : State) : exec (.data b) s = execData b s := rfl

/-- Writing back the bytes that are there changes nothing. -/
theorem State.withBuf_of_buf_eq {s : State} {bytes : List Byte} (h : s.buf = bytes) : s.withBuf bytes = s := by
  subst h
  rfl

/-! ## The buffers the Interpreter answers (R22, R108) -/

/-- The three shapes are the buffers with data bytes only after the first (R22). -/
theorem shapeOf_isSome {bytes : List Byte} : (shapeOf bytes).isSome = true ↔ ∀ d ∈ bytes.tail, ¬ 128 ≤ d.toNat := by
  cases bytes with
  | nil => simp [shapeOf]
  | cons b rest =>
    simp [shapeOf, isStatusByte, apply_ite Option.isSome]

/-- Only a status byte in a data position takes a message out of the Interpreter's domain (R108). -/
theorem exists_statusByte_of_interpret_none {m : RawMessage} (h : interpret m = none) :
    ∃ d ∈ m.tail, 128 ≤ d.toNat := by
  cases m with
  | nil => cases h
  | cons status rest =>
    simp only [interpret] at h
    split at h
    · cases h
    · split at h
      · cases h
      · split at h
        · next hvalues => exact fieldValues_none.mp hvalues
        · cases h

/-- Every buffer the Framer can hold has a result. -/
theorem exists_interpret_of_shape {bytes : List Byte} (h : (shapeOf bytes).isSome = true) :
    ∃ r, interpret bytes = some r := by
  refine Option.ne_none_iff_exists'.mp fun hnone => ?_
  obtain ⟨d, hmem, hd⟩ := exists_statusByte_of_interpret_none hnone
  exact shapeOf_isSome.mp h d hmem hd

/-! ## Emitting -/

theorem emit_of_buf_nil {s : State} (h : s.buf = []) : emit s = .next (s.withPort none) := by
  simp [emit, h]

theorem emit_of_interpret {s : State} {r : Result} (hbuf : s.buf ≠ []) (hr : interpret s.buf = some r) :
    emit s = .next (s.withPort (some { raw := s.buf, result := r })) := by
  simp [emit, hbuf, hr]

/-- `emit` writes the port only, and reads the buffer only: on any state with the same buffer it presents the same. -/
theorem emit_reads_buf {s u : State} (h : emit s = .next u) :
    ∃ out, u = s.withPort out ∧ ∀ s' : State, s'.buf = s.buf → emit s' = .next (s'.withPort out) := by
  obtain ⟨hbuf, rfl⟩ | ⟨hbuf, r, hr, rfl⟩ := emit_next h
  · exact ⟨_, rfl, fun s' hsame => emit_of_buf_nil (hsame.trans hbuf)⟩
  · refine ⟨_, rfl, fun s' hsame => ?_⟩
    rw [← hsame] at hbuf hr ⊢
    exact emit_of_interpret hbuf hr

/-! ## STATUS, DATA and END -/

theorem execStatus_of_emit {s u : State} (hrun : s.stopped = false) (h : emit s = .next u) (b : Byte) :
    execStatus b s = .next (u.withBuf [b]) := by
  simp [execStatus, hrun, h, andThen]

theorem execData_of_room {s : State} (hrun : s.stopped = false) (h : s.params.msgCap ≠ some s.buf.length) (b : Byte) :
    execData b s = .next ((s.withPort none).withBuf (s.buf ++ [b])) := by
  simp [execData, hrun, State.bufFull, h]

theorem execData_of_full {s : State} (hrun : s.stopped = false) (h : s.params.msgCap = some s.buf.length) (b : Byte) :
    execData b s = .next ((s.withPort none).raise .bufferOverflow) := by
  simp [execData, hrun, State.bufFull, h]

theorem execEnd_of_emit {s u : State} (hrun : s.stopped = false) (hflush : s.params.eosFlush = true)
    (h : emit s = .next u) : execEnd .eos s = .next ((u.withBuf []).raise (.streamFatal .eos)) := by
  simp [execEnd, hrun, hflush, h, andThen]

theorem execEnd_of_no_flush {s : State} {cause : Cause} (hrun : s.stopped = false)
    (h : ¬ (s.params.eosFlush = true ∧ cause = .eos)) :
    execEnd cause s = .next ((s.withPort none).raise (.streamFatal cause)) := by
  simp [execEnd, hrun, h]

/-- A flush of an empty buffer is no flush: END presents nothing and keeps the buffer (R84). -/
theorem execEnd_of_buf_nil {s : State} (hrun : s.stopped = false) (hbuf : s.buf = []) (cause : Cause) :
    execEnd cause s = .next ((s.withPort none).raise (.streamFatal cause)) := by
  by_cases h : s.params.eosFlush = true ∧ cause = .eos
  · obtain ⟨hflush, rfl⟩ := h
    rw [execEnd_of_emit hrun hflush (emit_of_buf_nil hbuf), State.withBuf_of_buf_eq (s := s.withPort none) hbuf]
  · exact execEnd_of_no_flush hrun h

end Sys2Proof.Machine
end

section
/-! The Framer's dispatch, and its three operations in a running block (R81 to R85). -/

namespace Sys2Proof.Machine

/-! ## A cycle that offers one event to a ready sink -/

/-- With the sink ready and no reset, the stop flags alone decide whether an event is taken (R56, R81). -/
theorem State.srcReady_of_sinkReady {c : CycleIn} (hrst : c.rst = false) (hsink : c.sinkReady = true) (s : State) :
    s.srcReady c = !s.stopped := by
  simp [State.srcReady, State.stopped, hrst, hsink]

theorem runCycle_of_sinkReady {c : CycleIn} {ev : InputEvent} (hrst : c.rst = false) (hsink : c.sinkReady = true)
    (hoff : c.offered = [ev]) (s : State) : runCycle c s = if s.stopped then .next s.hold else runEvent ev s := by
  rw [runCycle_of_offered_singleton hrst hoff, State.srcReady_of_sinkReady hrst hsink]
  cases s.stopped <;> rfl

/-- A running block takes an end of the stream and runs END (R81, R84). -/
theorem runCycle_endCycle {s : State} (hrun : s.stopped = false) (cause : Cause) :
    runCycle (endCycle cause) s = execEnd cause s := by
  have hoff : (endCycle cause).offered = [.ended cause] := offered_eventCycle (.ended cause)
  simp [runCycle_of_sinkReady rfl rfl hoff, hrun, runEvent]

/-! ## What an operation does depends on the event and on the buffer alone (R81) -/

/-- `t` and `t'` hold the same buffer, present the same, and have the same flags set; a cause counts only with its
flag. -/
def SameEffect (t t' : State) : Prop :=
  t'.buf = t.buf ∧ t'.port = t.port ∧ t'.fatal = t.fatal ∧ t'.fault = t.fault ∧
    (t.fatal = true → t'.fatalCause = t.fatalCause)

section
variable {s s' t : State} (hrun : s.stopped = false) (hrun' : s'.stopped = false) (hparams : s'.params = s.params)
  (hbuf : s'.buf = s.buf)
include hrun hrun' hbuf

theorem execStatus_sameEffect {b : Byte} (h : execStatus b s = .next t) :
    ∃ t', execStatus b s' = .next t' ∧ SameEffect t t' := by
  obtain ⟨-, u, hu, rfl⟩ := execStatus_next h
  obtain ⟨out, rfl, hout⟩ := emit_reads_buf hu
  refine ⟨_, execStatus_of_emit hrun' (hout s' hbuf) b, ?_⟩
  simp_all [SameEffect, State.stopped_eq_false]

include hparams

theorem execData_sameEffect {b : Byte} (h : execData b s = .next t) :
    ∃ t', execData b s' = .next t' ∧ SameEffect t t' := by
  obtain ⟨-, ⟨hfull, rfl⟩ | ⟨hroom, rfl⟩⟩ := execData_next h
  · refine ⟨_, execData_of_full hrun' (by rwa [hparams, hbuf]) b, ?_⟩
    simp_all [SameEffect, State.stopped_eq_false]
  · refine ⟨_, execData_of_room hrun' (by rwa [hparams, hbuf]) b, ?_⟩
    simp_all [SameEffect, State.stopped_eq_false]

theorem execEnd_sameEffect {cause : Cause} (h : execEnd cause s = .next t) :
    ∃ t', execEnd cause s' = .next t' ∧ SameEffect t t' := by
  obtain ⟨-, ⟨hflush, rfl, u, hu, rfl⟩ | ⟨hkeep, rfl⟩⟩ := execEnd_next h
  · obtain ⟨out, rfl, hout⟩ := emit_reads_buf hu
    refine ⟨_, execEnd_of_emit hrun' (by rwa [hparams]) (hout s' hbuf), ?_⟩
    simp_all [SameEffect, State.stopped_eq_false]
  · refine ⟨_, execEnd_of_no_flush hrun' (by rwa [hparams]), ?_⟩
    simp_all [SameEffect, State.stopped_eq_false]

theorem runEvent_sameEffect {ev : InputEvent} (h : runEvent ev s = .next t) :
    ∃ t', runEvent ev s' = .next t' ∧ SameEffect t t' := by
  cases ev with
  | byte b =>
    simp only [runEvent_byte] at h ⊢
    split_ifs at h ⊢
    · exact execStatus_sameEffect hrun hrun' hbuf h
    · exact execData_sameEffect hrun hrun' hparams hbuf h
  | ended cause => exact execEnd_sameEffect hrun hrun' hparams hbuf h

end

/-! ## The obligations -/

/-- Settles O9: the cycle runs the event exactly in a running block, and the event's operation reads the parameters and
the buffer alone. -/
theorem framerDispatch : Obligations.FramerDispatch := by
  intro s c ev rest hrst hsink hoff
  have hstep (u : State) : step (u.withInput (.cycle c :: rest)) =
      if u.stopped then .next (u.withInput rest).hold else runEvent ev (u.withInput rest) :=
    runCycle_of_sinkReady hrst hsink hoff (u.withInput rest)
  refine ⟨?_, fun s' t hrun hrun' hparams hbuf h => ?_⟩
  · rw [hstep, State.hold_withInput]
    cases ev with
    | byte b => rw [runEvent_byte]
    | ended cause => rfl
  · rw [hstep, if_neg (by simp [hrun])] at h
    rw [hstep, if_neg (by simp [hrun'])]
    exact runEvent_sameEffect (s := s.withInput rest) (s' := s'.withInput rest) hrun hrun' hparams hbuf h

/-- Settles O26: an empty buffer emits nothing, and a non-empty one of the three shapes has a result. -/
theorem statusClosesTheMessage : Obligations.StatusClosesTheMessage := by
  intro b s _ hrun hshape
  simp only [exec_status]
  refine ⟨fun hbuf => execStatus_of_emit hrun (emit_of_buf_nil hbuf) b, fun hbuf => ?_⟩
  obtain ⟨r, hr⟩ := exists_interpret_of_shape hshape
  exact ⟨r, hr, execStatus_of_emit hrun (emit_of_interpret hbuf hr) b⟩

/-- Settles O29: the flush of a buffer that has a result, and the two ways of not flushing. -/
theorem endOfStreamIsFatal : Obligations.EndOfStreamIsFatal := by
  intro s cause rest hrun hshape
  have hmoved : (s.withInput rest).stopped = false := hrun
  rw [step_cycle, runCycle_endCycle hmoved]
  refine ⟨?_, fun hkeep => ?_⟩
  · rintro hflush rfl hbuf
    obtain ⟨r, hr⟩ := exists_interpret_of_shape hshape
    exact ⟨r, hr, execEnd_of_emit hmoved hflush (emit_of_interpret (s := s.withInput rest) hbuf hr)⟩
  · by_cases hbuf : s.buf = []
    · exact execEnd_of_buf_nil hmoved hbuf cause
    · exact execEnd_of_no_flush hmoved fun ⟨hflush, hcause⟩ => hkeep ⟨hflush, hcause, hbuf⟩

/-- Settles O28: room appends, a full finite buffer overflows, and with `fault` set a run is a fault and no end. -/
theorem dataAppendsOrOverflows : Obligations.DataAppendsOrOverflows := by
  intro b s _ hrun
  simp only [exec_data]
  refine ⟨fun hroom => execData_of_room hrun hroom b, fun hfull => ⟨execData_of_full hrun hfull b, fun es => ?_⟩⟩
  refine ⟨status_of_fault rfl, Bool.eq_false_iff.mpr fun hsafe => ?_⟩
  obtain ⟨-, hfault⟩ := endsSafely_next.mp hsafe
  cases hfault

end Sys2Proof.Machine
end

section
/-! The Interpreter's answer by the table row of the first byte and the length (R101 to R104, R109, R122). -/

namespace Sys2Proof.Machine

/-! ## The command table (R27) -/

theorem tableLookup_eq_none {kind : Kind} : tableLookup kind = none ↔ kind.toNat ≤ 7 := by
  decide +revert

/-- No two commands share a kind, and a kind stands for the command that has it. -/
theorem tableLookup_eq_some {kind : Kind} {cmd : Command} : tableLookup kind = some cmd ↔ kindOfCommand cmd = kind := by
  refine ⟨?_, fun h => h ▸ tableLookup_kindOfCommand cmd⟩
  cases cmd <;> decide +revert

/-- No command has more than two fields (R27). -/
theorem length_fieldsOfCommand_le_two (cmd : Command) : (fieldsOfCommand cmd).length ≤ 2 := by
  cases cmd <;> decide

/-! ## The kind of a status byte in plain arithmetic (R61) -/

theorem kindOf_eq_ofNat (b : Byte) : kindOf b = BitVec.ofNat 4 (b.toNat / 16) := by
  rw [← kindOf_toNat, BitVec.ofNat_toNat, BitVec.setWidth_eq]

/-- The first byte has no table row exactly when it is no status byte (R103). -/
theorem tableLookup_kindOf_eq_none {b : Byte} : tableLookup (kindOf b) = none ↔ b.toNat ≤ 127 := by
  rw [tableLookup_eq_none, kindOf_toNat]
  omega

theorem tableLookup_kindOf_eq_some {b : Byte} {cmd : Command} :
    tableLookup (kindOf b) = some cmd ↔ b.toNat / 16 = (kindOfCommand cmd).toNat := by
  rw [tableLookup_eq_some, BitVec.toNat_eq, kindOf_toNat, eq_comm]

/-! ## The algorithm R109, one equation per row -/

@[simp] theorem interpret_nil : interpret [] = some (.err .empty) := rfl

theorem interpret_of_unknown {b : Byte} (h : tableLookup (kindOf b) = none) (rest : List Byte) :
    interpret (b :: rest) = some (.err (.unknownCommand (kindOf b))) := by
  simp [interpret, h]

theorem interpret_of_arity_ne {b : Byte} {cmd : Command} {rest : List Byte} (h : tableLookup (kindOf b) = some cmd)
    (hlen : (fieldsOfCommand cmd).length ≠ rest.length) :
    interpret (b :: rest) = some (.err (.arityMismatch (fieldsOfCommand cmd).length rest.length)) := by
  simp [interpret, h, hlen]

theorem interpret_of_arity_eq {b : Byte} {cmd : Command} {rest : List Byte} (h : tableLookup (kindOf b) = some cmd)
    (hlen : (fieldsOfCommand cmd).length = rest.length) :
    interpret (b :: rest) =
      (fieldValues rest).map fun values => .ok (buildEvent cmd (channelOf b) (b :: rest) values) := by
  simp only [interpret, h, hlen, ne_eq, not_true_eq_false, if_false]
  cases fieldValues rest <;> rfl

/-- The error of a message is decided by its first byte and its length (R122). -/
theorem interpret_cons_eq_err {b : Byte} {rest : List Byte} {x : DecodeError} :
    interpret (b :: rest) = some (.err x) ↔
      (tableLookup (kindOf b) = none ∧ x = .unknownCommand (kindOf b)) ∨
      ∃ cmd, tableLookup (kindOf b) = some cmd ∧ (fieldsOfCommand cmd).length ≠ rest.length ∧
        x = .arityMismatch (fieldsOfCommand cmd).length rest.length := by
  cases hrow : tableLookup (kindOf b) with
  | none => simp [interpret_of_unknown hrow, eq_comm]
  | some cmd =>
    by_cases hlen : (fieldsOfCommand cmd).length = rest.length
    · simp [interpret_of_arity_eq hrow hlen, hlen]
    · simp [interpret_of_arity_ne hrow hlen, hlen, @eq_comm _ x]

/-- A decoded event is that of the table row, from a message as long as the row says with data bytes only after the
first (R104, R105, R108). -/
theorem interpret_cons_eq_ok {b : Byte} {rest : List Byte} {e : Event} :
    interpret (b :: rest) = some (.ok e) ↔
      ∃ cmd values, tableLookup (kindOf b) = some cmd ∧ (fieldsOfCommand cmd).length = rest.length ∧
        fieldValues rest = some values ∧ e = buildEvent cmd (channelOf b) (b :: rest) values := by
  cases hrow : tableLookup (kindOf b) with
  | none => simp [interpret_of_unknown hrow]
  | some cmd =>
    by_cases hlen : (fieldsOfCommand cmd).length = rest.length
    · simp [interpret_of_arity_eq hrow hlen, hlen, @eq_comm _ e]
    · simp [interpret_of_arity_ne hrow hlen, hlen]

theorem raw_of_interpret_ok {m : RawMessage} {e : Event} (h : interpret m = some (.ok e)) : e.raw = m := by
  cases m with
  | nil => cases h
  | cons b rest =>
    obtain ⟨cmd, values, -, -, -, rfl⟩ := interpret_cons_eq_ok.mp h
    rfl

/-- A message that decodes to an event has no byte beyond index 2 (R63). -/
theorem length_le_three_of_interpret_ok {m : RawMessage} {e : Event} (h : interpret m = some (.ok e)) :
    m.length ≤ 3 := by
  cases m with
  | nil => cases h
  | cons b rest =>
    obtain ⟨cmd, values, -, hlen, -, -⟩ := interpret_cons_eq_ok.mp h
    have hfields := length_fieldsOfCommand_le_two cmd
    rw [List.length_cons]
    omega

/-- A message of a command's kind with a wrong number of data bytes is an arity error (R104). -/
theorem interpret_of_wrong_length (cmd : Command) {b : Byte} {rest : List Byte}
    (hkind : b.toNat / 16 = (kindOfCommand cmd).toNat) (hlen : rest.length ≠ (fieldsOfCommand cmd).length) :
    interpret (b :: rest) = some (.err (.arityMismatch (fieldsOfCommand cmd).length rest.length)) :=
  interpret_of_arity_ne (tableLookup_kindOf_eq_some.mpr hkind) hlen.symm

/-! ## What a result reads of its message (R122) -/

/-- The error depends on the first byte and the length alone. -/
theorem interpret_err_congr {m m' : RawMessage} (hlen : m.length = m'.length) (h0 : m[0]? = m'[0]?) (x : DecodeError) :
    interpret m = some (.err x) ↔ interpret m' = some (.err x) := by
  cases m with
  | nil => rw [List.length_eq_zero_iff.mp hlen.symm]
  | cons b rest =>
    cases m' with
    | nil => cases h0
    | cons b' rest' =>
      obtain rfl : b = b' := by simpa using h0
      have hrest : rest.length = rest'.length := by simpa using hlen
      rw [interpret_cons_eq_err, interpret_cons_eq_err, hrest]

/-- Messages of one length, at most 3, that agree at the indices 0, 1 and 2 are the same. -/
theorem eq_of_first_three {m m' : RawMessage} (hlen : m.length = m'.length) (hshort : m.length ≤ 3)
    (h0 : m[0]? = m'[0]?) (h1 : m[1]? = m'[1]?) (h2 : m[2]? = m'[2]?) : m = m' := by
  refine List.ext_getElem? fun i => ?_
  match i with
  | 0 => exact h0
  | 1 => exact h1
  | 2 => exact h2
  | i + 3 => rw [List.getElem?_eq_none (by omega), List.getElem?_eq_none (by omega)]

/-! ## The obligations -/

/-- Settles O23: an error is decided by the first byte and the length, and a message with an event ends at index 2. -/
theorem readsOnlyFirstThreeBytes : Obligations.ReadsOnlyFirstThreeBytes := by
  intro m m' hlen
  refine ⟨interpret_err_congr hlen, fun h0 h1 h2 e he => ?_⟩
  obtain rfl := eq_of_first_three hlen (length_le_three_of_interpret_ok he) h0 h1 h2
  rw [he, ← raw_of_interpret_ok he]

/-- Settles O21: the empty message is the only one with no first byte, and the table has a row from 128 on. -/
theorem emptyAndUnknownAnswered : Obligations.EmptyAndUnknownAnswered := by
  refine ⟨fun m => ?_, fun b m => ⟨fun hdata => ?_, fun hstatus kind hanswer => ?_⟩⟩
  · cases m <;> simp [interpret_cons_eq_err]
  · rw [interpret_of_unknown (tableLookup_kindOf_eq_none.mpr hdata), kindOf_eq_ofNat]
  · obtain ⟨hrow, -⟩ | ⟨cmd, -, -, herror⟩ := interpret_cons_eq_err.mp hanswer
    · have := tableLookup_kindOf_eq_none.mp hrow
      omega
    · cases herror

end Sys2Proof.Machine
end

section
/-! The eight commands in a running block: the event each presents, and the bytes that decode to it (R110 to R117). -/

namespace Sys2Proof.Machine

/-! ## An operation of the Interpreter as a row of the command table -/

/-- The command an operation of the Interpreter is, its channel and its field values; none for STATUS and DATA. -/
def commandOf : Instr → Option (Command × Channel × List FieldValue)
  | .noteOff c key velocity => some (.noteOff, c, [key, velocity])
  | .noteOn c key velocity => some (.noteOn, c, [key, velocity])
  | .aftertouch c key touch => some (.aftertouch, c, [key, touch])
  | .controller c controller value => some (.controller, c, [controller, value])
  | .programChange c instrument => some (.programChange, c, [instrument])
  | .channelPressure c pressure => some (.channelPressure, c, [pressure])
  | .pitchBend c lsb msb => some (.pitchBend, c, [lsb, msb])
  | .system c => some (.system, c, [])
  | .status _ => none
  | .data _ => none

section
variable {i : Instr} {cmd : Command} {c : Channel} {values : List FieldValue}

/-- A command's meaning is to present its event, whichever command it is. -/
theorem exec_of_commandOf (h : commandOf i = some (cmd, c, values)) (s : State) :
    exec i s = .next (presentCommand cmd c values s) := by
  cases i <;> cases h <;> rfl

/-- The encoder's bytes of a command are those of its table row (R63, R74). -/
theorem encode_of_commandOf (h : commandOf i = some (cmd, c, values)) : encode i = commandBytes cmd c values := by
  rw [commandBytes_eq]
  cases i <;> cases h <;> rfl

theorem level_of_commandOf (h : commandOf i = some (cmd, c, values)) : i.level = .interpreter := by
  cases i <;> cases h <;> rfl

end

/-! ## The Interpreter's decoder on the encoder's bytes -/

@[simp] theorem payloadOf_dataByteOf (v : FieldValue) : payloadOf (dataByteOf v) = some v :=
  payloadOf_some.mpr rfl

@[simp] theorem formatS1_dataByteOf (i : FieldValue → Instr) (x : FieldValue) :
    formatS1 i [dataByteOf x] = .ok (i x) := by
  simp [formatS1]

@[simp] theorem formatS2_dataByteOf (i : FieldValue → FieldValue → Instr) (x y : FieldValue) :
    formatS2 i [dataByteOf x, dataByteOf y] = .ok (i x y) := by
  simp [formatS2]

/-- The kind nibble of the encoded status byte picks the command's own row, whose format reads the operands back. -/
theorem decodeMessage_encode {i : Instr} (h : i.level = .interpreter) : decodeMessage (encode i) = .ok i := by
  cases i with
  | status b => cases h
  | data b => cases h
  | system c => simp [encode, decodeMessage, extract_kindOf, extract_channelOf, formatS0]
  | _ => simp [encode, decodeMessage, extract_kindOf, extract_channelOf]

theorem decode_interpreter_encode {i : Instr} (h : i.level = .interpreter) : decode .interpreter (encode i) = .ok i := by
  rw [decode, decodeMessage_encode h]

/-! ## What a command does in a running block -/

theorem presentCommand_running {s : State} (hrun : s.stopped = false) (cmd : Command) (c : Channel)
    (values : List FieldValue) :
    presentCommand cmd c values s = { s with
      port := some {
        raw := commandBytes cmd c values
        result := .ok (buildEvent cmd c (commandBytes cmd c values) values) } } :=
  State.present_running s _ hrun

/-- A command presents its bytes with its event and changes nothing else, and those bytes decode to it. -/
theorem exec_and_decode_of_commandOf {i : Instr} {cmd : Command} {c : Channel} {values : List FieldValue} {s : State}
    (h : commandOf i = some (cmd, c, values)) (hrun : s.stopped = false) :
    exec i s = .next { s with
      port := some {
        raw := commandBytes cmd c values
        result := .ok (buildEvent cmd c (commandBytes cmd c values) values) } } ∧
    decode .interpreter (commandBytes cmd c values) = .ok i := by
  rw [exec_of_commandOf h, presentCommand_running hrun, ← encode_of_commandOf h]
  exact ⟨rfl, decode_interpreter_encode (level_of_commandOf h)⟩

/-! ## The derived value of pitch-bend (R69) -/

/-- The shift and the or lose no bit. -/
theorem bendValue_toNat (lsb msb : FieldValue) : (bendValue lsb msb).toNat = lsb.toNat + 128 * msb.toNat := by
  have hlsb : lsb.toNat < 2 ^ 7 := lsb.isLt
  have hmsb : msb.toNat < 2 ^ 7 := msb.isLt
  have hshift : (msb.setWidth 14 <<< 7).toNat = msb.toNat <<< 7 := by
    rw [BitVec.toNat_shiftLeft, BitVec.toNat_setWidth_of_le (by decide), Nat.mod_eq_of_lt]
    rw [Nat.shiftLeft_eq]
    omega
  rw [bendValue, BitVec.toNat_or, hshift, BitVec.toNat_setWidth_of_le (by decide), Nat.or_comm,
    ← Nat.shiftLeft_add_eq_or_of_lt hlsb, Nat.shiftLeft_eq]
  omega

theorem bendValue_eq_ofNat (lsb msb : FieldValue) :
    bendValue lsb msb = BitVec.ofNat 14 (lsb.toNat + 128 * msb.toNat) := by
  rw [← bendValue_toNat, BitVec.ofNat_toNat, BitVec.setWidth_eq]

/-- A pair has the value `v` exactly when it is the remainder and the quotient of `v` by 128. -/
theorem bendValue_eq {lsb msb : FieldValue} {v : BendValue} :
    bendValue lsb msb = v ↔ lsb = BitVec.ofNat 7 (v.toNat % 128) ∧ msb = BitVec.ofNat 7 (v.toNat / 128) := by
  have hlsb := lsb.isLt
  have hmsb := msb.isLt
  have hv := v.isLt
  rw [BitVec.toNat_eq, BitVec.toNat_eq, BitVec.toNat_eq, bendValue_toNat, BitVec.toNat_ofNat, BitVec.toNat_ofNat]
  omega

/-! ## The obligations -/

/-- Settles O10: the event and the arity error of the table row of `noteOff`. -/
theorem noteOffPresentsKeyAndVelocity : Obligations.NoteOffPresentsKeyAndVelocity :=
  ⟨fun c key velocity _ hrun => exec_and_decode_of_commandOf (i := .noteOff c key velocity) rfl hrun,
    fun _ _ => interpret_of_wrong_length .noteOff⟩

/-- Settles O11: the event and the arity error of the table row of `noteOn`. -/
theorem noteOnPresentsKeyAndVelocity : Obligations.NoteOnPresentsKeyAndVelocity :=
  ⟨fun c key velocity _ hrun => exec_and_decode_of_commandOf (i := .noteOn c key velocity) rfl hrun,
    fun _ _ => interpret_of_wrong_length .noteOn⟩

/-- Settles O12: the event and the arity error of the table row of `aftertouch`. -/
theorem aftertouchPresentsKeyAndTouch : Obligations.AftertouchPresentsKeyAndTouch :=
  ⟨fun c key touch _ hrun => exec_and_decode_of_commandOf (i := .aftertouch c key touch) rfl hrun,
    fun _ _ => interpret_of_wrong_length .aftertouch⟩

/-- Settles O13: the event and the arity error of the table row of `controller`. -/
theorem controllerPresentsNumberAndValue : Obligations.ControllerPresentsNumberAndValue :=
  ⟨fun c controller value _ hrun => exec_and_decode_of_commandOf (i := .controller c controller value) rfl hrun,
    fun _ _ => interpret_of_wrong_length .controller⟩

/-- Settles O14: the event and the arity error of the table row of `programChange`. -/
theorem programChangePresentsInstrument : Obligations.ProgramChangePresentsInstrument :=
  ⟨fun c instrument _ hrun => exec_and_decode_of_commandOf (i := .programChange c instrument) rfl hrun,
    fun _ _ => interpret_of_wrong_length .programChange⟩

/-- Settles O15: the event and the arity error of the table row of `channelPressure`. -/
theorem channelPressurePresentsPressure : Obligations.ChannelPressurePresentsPressure :=
  ⟨fun c pressure _ hrun => exec_and_decode_of_commandOf (i := .channelPressure c pressure) rfl hrun,
    fun _ _ => interpret_of_wrong_length .channelPressure⟩

/-- Settles O16: the derived value as the sum, and the pair of a value as its remainder and quotient by 128. -/
theorem pitchBendPresentsDerivedValue : Obligations.PitchBendPresentsDerivedValue := by
  refine ⟨fun c lsb msb s hrun => ?_, fun _ _ => interpret_of_wrong_length .pitchBend, fun v => ?_⟩
  · rw [← bendValue_eq_ofNat]
    exact exec_and_decode_of_commandOf (i := .pitchBend c lsb msb) rfl hrun
  · simp only [← bendValue_eq_ofNat, bendValue_eq]
    exact ⟨_, _, ⟨rfl, rfl⟩, fun _ _ h => h⟩

/-- Settles O17: the event and the arity error of the table row of `system`. -/
theorem systemPresentsChannelOnly : Obligations.SystemPresentsChannelOnly :=
  ⟨fun c _ hrun => exec_and_decode_of_commandOf (i := .system c) rfl hrun,
    fun _ _ => interpret_of_wrong_length .system⟩

end Sys2Proof.Machine
end

section
/-! Reset, and what a step can do to a stopped block (R25, R26, R160). -/

namespace Sys2Proof.Machine

/-! ## A cycle with reset -/

/-- Reset comes before the handshake and before the check on what is offered (R138, R160). -/
theorem runCycle_of_rst {c : CycleIn} (hrst : c.rst = true) (s : State) : runCycle c s = .next s.resetBlock := by
  simp [runCycle, hrst]

theorem State.srcReady_of_rst {c : CycleIn} (hrst : c.rst = true) (s : State) : s.srcReady c = false := by
  simp [State.srcReady, hrst]

/-! ## A step of a stopped block: it resets, or it holds -/

@[simp] theorem State.stopped_withInput (s : State) (rest : List Input) : (s.withInput rest).stopped = s.stopped := rfl

@[simp] theorem State.stopped_hold (s : State) : s.hold.stopped = s.stopped := rfl

/-- A stopped block takes no event (R56). -/
theorem State.srcReady_of_stopped {s : State} (hstop : s.stopped = true) (c : CycleIn) : s.srcReady c = false := by
  refine Bool.eq_false_iff.mpr fun hready => ?_
  obtain ⟨hfatal, hfault, -, -⟩ := State.srcReady_eq_true.mp hready
  simp [s.stopped_eq_false.mpr ⟨hfatal, hfault⟩] at hstop

section
variable {s t : State} (hstop : s.stopped = true)
include hstop

/-- STATUS and DATA need a running block; a command presents nothing in a stopped one. -/
theorem eq_hold_of_exec_of_stopped {i : Instr} (h : exec i s = .next t) : t = s.hold := by
  cases i with
  | status b =>
    obtain ⟨hrun, -⟩ := execStatus_next h
    simp [hrun] at hstop
  | data b =>
    obtain ⟨hrun, -⟩ := execData_next h
    simp [hrun] at hstop
  | _ =>
    rw [exec_of_commandOf rfl, presentCommand, State.present_stopped _ _ hstop] at h
    cases h
    rfl

theorem eq_hold_of_runMessage_of_stopped {m : RawMessage} (h : runMessage m s = .next t) : t = s.hold := by
  obtain ⟨i, -, hexec⟩ | ⟨e, -, rfl⟩ := runMessage_next h
  · exact eq_hold_of_exec_of_stopped hstop hexec
  · exact State.present_stopped s _ hstop

theorem rst_or_eq_hold_of_runCycle_of_stopped {c : CycleIn} (h : runCycle c s = .next t) :
    c.rst = true ∨ t = s.hold := by
  obtain ⟨hrst, -⟩ | ⟨-, hhold, -⟩ | ⟨-, ev, -, hready, -⟩ := runCycle_next h
  · exact .inl hrst
  · exact .inr hhold
  · simp [State.srcReady_of_stopped hstop] at hready

/-- Only a cycle with reset ends a stop (R25, R26). -/
theorem rst_or_stopped_of_step_of_stopped (h : step s = .next t) :
    (∃ c, s.input.head? = some (.cycle c) ∧ c.rst = true) ∨ t.stopped = true := by
  obtain ⟨-, rfl⟩ | ⟨c, rest, hinput, hcycle⟩ | ⟨m, rest, -, hmessage⟩ := step_next h
  · exact .inr (by simpa using hstop)
  · obtain hrst | rfl := rst_or_eq_hold_of_runCycle_of_stopped (s := s.withInput rest) hstop hcycle
    · exact .inl ⟨c, by simp [hinput], hrst⟩
    · exact .inr (by simpa using hstop)
  · obtain rfl := eq_hold_of_runMessage_of_stopped (s := s.withInput rest) hstop hmessage
    exact .inr (by simpa using hstop)

end

/-! ## The obligation -/

/-- Settles O36: reset is decided before everything else in the cycle, and every other step of a stopped block holds. -/
theorem resetCycleRestoresReset : Obligations.ResetCycleRestoresReset := by
  refine ⟨fun s c rest hrst _ => ⟨s.srcReady_of_rst hrst, ?_⟩, fun s t h hstop hleft => ?_⟩
  · rw [step_cycle, runCycle_of_rst hrst]
    rfl
  · exact (rst_or_stopped_of_step_of_stopped hstop h).resolve_right (by simp [hleft])

end Sys2Proof.Machine
end

section
/-! The Interpreter's decoder by the table row of the first byte, and that it and the encoder are inverse to each other
(R60 to R63, R70). -/

namespace Sys2Proof.Machine

/-! ## The decoder's rows -/

/-- The format a command's row of the opcode map reads (R63, R70). -/
def rowFormat (cmd : Command) (c : Channel) : RawMessage → Except MessageReject Instr :=
  match cmd with
  | .noteOff => formatS2 (.noteOff c)
  | .noteOn => formatS2 (.noteOn c)
  | .aftertouch => formatS2 (.aftertouch c)
  | .controller => formatS2 (.controller c)
  | .programChange => formatS1 (.programChange c)
  | .channelPressure => formatS1 (.channelPressure c)
  | .pitchBend => formatS2 (.pitchBend c)
  | .system => formatS0 (.system c)

/-- The decoder's opcode map is the command table (R27, R70). -/
theorem decodeMessage_of_row {b : Byte} {cmd : Command} (h : tableLookup (kindOf b) = some cmd) (rest : List Byte) :
    decodeMessage (b :: rest) = rowFormat cmd (channelOf b) rest := by
  have hkind := tableLookup_eq_some.mp h
  cases cmd <;> simp [decodeMessage, extract_kindOf, extract_channelOf, ← hkind, kindOfCommand, rowFormat]

theorem decodeMessage_of_unknown {b : Byte} (h : tableLookup (kindOf b) = none) (rest : List Byte) :
    decodeMessage (b :: rest) = .error (.error (.unknownCommand (kindOf b))) := by
  have hlow := tableLookup_eq_none.mp h
  simp only [decodeMessage, extract_kindOf]
  split
  case h_9 => rfl
  all_goals omega

/-! ## A format on a wrong length and on a byte outside the domain (R104, R108) -/

theorem formatS1_of_length_ne (i : FieldValue → Instr) {rest : List Byte} (h : 1 ≠ rest.length) :
    formatS1 i rest = .error (.error (.arityMismatch 1 rest.length)) := by
  match rest with
  | [] => rfl
  | [_] => simp at h
  | _ :: _ :: _ => rfl

theorem formatS2_of_length_ne (i : FieldValue → FieldValue → Instr) {rest : List Byte} (h : 2 ≠ rest.length) :
    formatS2 i rest = .error (.error (.arityMismatch 2 rest.length)) := by
  match rest with
  | [] => rfl
  | [_] => rfl
  | [_, _] => simp at h
  | _ :: _ :: _ :: _ => rfl

theorem rowFormat_of_length_ne (c : Channel) {cmd : Command} {rest : List Byte}
    (h : (fieldsOfCommand cmd).length ≠ rest.length) :
    rowFormat cmd c rest = .error (.error (.arityMismatch (fieldsOfCommand cmd).length rest.length)) := by
  cases cmd with
  | system =>
    match rest with
    | [] => simp [fieldsOfCommand] at h
    | _ :: _ => rfl
  | programChange => exact formatS1_of_length_ne _ h
  | channelPressure => exact formatS1_of_length_ne _ h
  | _ => exact formatS2_of_length_ne _ h

theorem formatS1_of_fieldValues_none (i : FieldValue → Instr) {rest : List Byte} (hlen : 1 = rest.length)
    (h : fieldValues rest = none) : formatS1 i rest = .error .highDataByte := by
  obtain ⟨x, rfl⟩ := List.length_eq_one_iff.mp hlen.symm
  have hx : payloadOf x = none := by simpa [fieldValues_none, payloadOf_none] using h
  simp [formatS1, hx]

theorem formatS2_of_fieldValues_none (i : FieldValue → FieldValue → Instr) {rest : List Byte} (hlen : 2 = rest.length)
    (h : fieldValues rest = none) : formatS2 i rest = .error .highDataByte := by
  obtain ⟨x, y, rfl⟩ := List.length_eq_two.mp hlen.symm
  have hxy : payloadOf x = none ∨ payloadOf y = none := by simpa [fieldValues_none, payloadOf_none] using h
  obtain hx | hy := hxy
  · simp [formatS2, hx]
  · cases hx : payloadOf x <;> simp [formatS2, hx, hy]

theorem rowFormat_of_fieldValues_none (c : Channel) {cmd : Command} {rest : List Byte}
    (hlen : (fieldsOfCommand cmd).length = rest.length) (h : fieldValues rest = none) :
    rowFormat cmd c rest = .error .highDataByte := by
  cases cmd with
  | system => simp [List.length_eq_zero_iff.mp hlen.symm, fieldValues] at h
  | programChange => exact formatS1_of_fieldValues_none _ hlen h
  | channelPressure => exact formatS1_of_fieldValues_none _ hlen h
  | _ => exact formatS2_of_fieldValues_none _ hlen h

/-! ## Operations and table rows -/

theorem exists_commandOf {i : Instr} (h : i.level = .interpreter) :
    ∃ cmd c values, commandOf i = some (cmd, c, values) ∧ values.length = (fieldsOfCommand cmd).length := by
  cases i with
  | status b => cases h
  | data b => cases h
  | _ => exact ⟨_, _, _, rfl, rfl⟩

/-- Every row with as many values as it has fields is an operation. -/
theorem exists_instr_of_row {cmd : Command} {values : List FieldValue}
    (h : values.length = (fieldsOfCommand cmd).length) (c : Channel) : ∃ i, commandOf i = some (cmd, c, values) := by
  have hshort : values = [] ∨ (∃ x, values = [x]) ∨ ∃ x y, values = [x, y] := by
    have := length_fieldsOfCommand_le_two cmd
    rw [← List.length_eq_zero_iff, ← List.length_eq_one_iff, ← List.length_eq_two]
    omega
  obtain rfl | ⟨x, rfl⟩ | ⟨x, y, rfl⟩ := hshort
  · cases cmd with
    | system => exact ⟨.system c, rfl⟩
    | _ => cases h
  · cases cmd with
    | programChange => exact ⟨.programChange c x, rfl⟩
    | channelPressure => exact ⟨.channelPressure c x, rfl⟩
    | _ => cases h
  · cases cmd with
    | noteOff => exact ⟨.noteOff c x y, rfl⟩
    | noteOn => exact ⟨.noteOn c x y, rfl⟩
    | aftertouch => exact ⟨.aftertouch c x y, rfl⟩
    | controller => exact ⟨.controller c x y, rfl⟩
    | pitchBend => exact ⟨.pitchBend c x y, rfl⟩
    | _ => cases h

/-! ## The decoder and the algorithm R109 accept and reject alike -/

theorem decodeMessage_of_interpret_none {m : RawMessage} (h : interpret m = none) :
    decodeMessage m = .error .highDataByte := by
  cases m with
  | nil => cases h
  | cons b rest =>
    cases hrow : tableLookup (kindOf b) with
    | none => simp [interpret_of_unknown hrow] at h
    | some cmd =>
      by_cases hlen : (fieldsOfCommand cmd).length = rest.length
      · rw [interpret_of_arity_eq hrow hlen, Option.map_eq_none_iff] at h
        rw [decodeMessage_of_row hrow, rowFormat_of_fieldValues_none _ hlen h]
      · simp [interpret_of_arity_ne hrow hlen] at h

theorem decodeMessage_of_interpret_err {m : RawMessage} {x : DecodeError} (h : interpret m = some (.err x)) :
    decodeMessage m = .error (.error x) := by
  cases m with
  | nil =>
    cases h
    rfl
  | cons b rest =>
    obtain ⟨hrow, rfl⟩ | ⟨cmd, hrow, hlen, rfl⟩ := interpret_cons_eq_err.mp h
    · exact decodeMessage_of_unknown hrow rest
    · rw [decodeMessage_of_row hrow, rowFormat_of_length_ne _ hlen]

/-- A message with an event is the encoding of the operation that presents it. -/
theorem exists_instr_of_interpret_ok {m : RawMessage} {e : Event} (h : interpret m = some (.ok e)) :
    ∃ i cmd c values, commandOf i = some (cmd, c, values) ∧ m = encode i ∧ e = buildEvent cmd c m values := by
  cases m with
  | nil => cases h
  | cons b rest =>
    obtain ⟨cmd, values, hrow, hlen, hvalues, rfl⟩ := interpret_cons_eq_ok.mp h
    obtain rfl := fieldValues_some.mp hvalues
    obtain ⟨i, hi⟩ := exists_instr_of_row (by simpa using hlen.symm) (channelOf b)
    refine ⟨i, cmd, _, values, hi, ?_, rfl⟩
    rw [encode_of_commandOf hi, commandBytes_eq, tableLookup_eq_some.mp hrow, statusByteOf_kindOf]

/-- What the Interpreter's decoder accepts is the encoding of what it answers. -/
theorem encode_of_decodeMessage {m : RawMessage} {i : Instr} (h : decodeMessage m = .ok i) :
    encode i = m ∧ i.level = .interpreter := by
  cases hr : interpret m with
  | none => simp [decodeMessage_of_interpret_none hr] at h
  | some r =>
    cases r with
    | err x => simp [decodeMessage_of_interpret_err hr] at h
    | ok e =>
      obtain ⟨i', cmd, c, values, hi, rfl, -⟩ := exists_instr_of_interpret_ok hr
      have hlevel := level_of_commandOf hi
      rw [decodeMessage_encode hlevel] at h
      cases h
      exact ⟨rfl, hlevel⟩

theorem decode_interpreter_eq_ok {m : RawMessage} {i : Instr} :
    decode .interpreter m = .ok i ↔ decodeMessage m = .ok i := by
  cases h : decodeMessage m <;> simp [decode, h]

/-! ## The Framer's decoder -/

theorem decodeByte_of_status {b : Byte} (h : 128 ≤ b.toNat) : decodeByte b = .status b := by
  simp [decodeByte, isStatusByte, h]

theorem decodeByte_of_data {b : Byte} (h : b.toNat ≤ 127) : decodeByte b = .data b := by
  have : ¬ 128 ≤ b.toNat := by omega
  simp [decodeByte, isStatusByte, this]

/-- The Framer's decoder accepts one byte, whose class picks the operation. -/
theorem encode_of_decode_framer {bytes : List Byte} {i : Instr} (h : decode .framer bytes = .ok i) :
    encode i = bytes ∧ i.level = .framer ∧ i.wellFormed = true := by
  match bytes with
  | [] => cases h
  | _ :: _ :: _ => cases h
  | [b] =>
    obtain rfl : decodeByte b = i := by simpa [decode] using h
    obtain hb | hb := Nat.lt_or_ge 127 b.toNat
    · rw [decodeByte_of_status hb]
      exact ⟨rfl, rfl, decide_eq_true hb⟩
    · rw [decodeByte_of_data hb]
      exact ⟨rfl, rfl, decide_eq_true hb⟩

theorem wellFormed_of_level {i : Instr} (h : i.level = .interpreter) : i.wellFormed = true := by
  cases i with
  | status b => cases h
  | data b => cases h
  | _ => rfl

/-! ## The obligations -/

/-- Settles O1: the Interpreter's format reads the operands back, and a byte's class picks STATUS or DATA. -/
theorem decodeOfEncode : Obligations.DecodeOfEncode := by
  intro i hwf
  cases i with
  | status b => simp [Instr.level, encode, decode, decodeByte_of_status (of_decide_eq_true hwf)]
  | data b => simp [Instr.level, encode, decode, decodeByte_of_data (of_decide_eq_true hwf)]
  | _ => exact decode_interpreter_encode rfl

/-- Settles O2: level by level, what a decoder accepts is the encoding of what it answers. -/
theorem encodeOfDecode : Obligations.EncodeOfDecode := by
  intro l bytes i h
  cases l with
  | framer => exact encode_of_decode_framer h
  | interpreter =>
    obtain ⟨hbytes, hlevel⟩ := encode_of_decodeMessage (decode_interpreter_eq_ok.mp h)
    exact ⟨hbytes, hlevel, wellFormed_of_level hlevel⟩

/-- Settles O4, by running the decoder on the seven vectors. -/
theorem sampleWordsDecode : Obligations.SampleWordsDecode := by
  unfold Obligations.SampleWordsDecode
  decide

/-- Settles O5: the two facts about the lookup, and the eight rows read off. -/
theorem commandTableRows : Obligations.CommandTableRows :=
  ⟨fun _ => tableLookup_eq_none, fun _ _ => tableLookup_eq_some, by decide⟩

end Sys2Proof.Machine
end

section
/-! The opcode table's words: packing bytes into a word and reading them back (R70, log 6). -/

namespace Sys2Proof.Machine

/-! ## A word holds exactly its bytes -/

theorem tableWordOf_append (bytes : List Byte) (b : Byte) :
    tableWordOf (bytes ++ [b]) = tableWordOf bytes * 256 + b.toNat := by
  simp [tableWordOf]

/-- Dropping the last byte of a word is dividing it by 256. -/
theorem tableBytes_succ (n w : Nat) :
    tableBytes (8 * (n + 1)) w = tableBytes (8 * n) (w / 256) ++ [BitVec.ofNat 8 w] := by
  have hbytes (k : Nat) : 8 * k / 8 = k := by omega
  have hinit (i : Nat) (hi : i < n) : w / 256 ^ (n - i) = w / 256 / 256 ^ (n - 1 - i) := by
    rw [Nat.div_div_eq_div_mul, ← Nat.pow_add_one', show n - 1 - i + 1 = n - i by omega]
  simp only [tableBytes, hbytes, List.range_succ, List.map_append, List.map_cons, List.map_nil, Nat.add_sub_cancel,
    Nat.sub_self, Nat.pow_zero, Nat.div_one]
  congr 1
  exact List.map_congr_left fun i hi => by rw [hinit i (List.mem_range.mp hi)]

theorem tableBytes_tableWordOf (bytes : List Byte) : tableBytes (8 * bytes.length) (tableWordOf bytes) = bytes := by
  induction bytes using List.reverseRecOn with
  | nil => rfl
  | append_singleton bytes b ih =>
    have hb := b.isLt
    have hquot : (tableWordOf bytes * 256 + b.toNat) / 256 = tableWordOf bytes := by omega
    have hrem : BitVec.ofNat 8 (tableWordOf bytes * 256 + b.toNat) = b := by
      apply BitVec.eq_of_toNat_eq
      rw [BitVec.toNat_ofNat]
      omega
    rw [List.length_append, List.length_singleton, tableBytes_succ, tableWordOf_append, hquot, hrem, ih]

theorem tableWordOf_lt (bytes : List Byte) : tableWordOf bytes < 2 ^ (8 * bytes.length) := by
  induction bytes using List.reverseRecOn with
  | nil => simp [tableWordOf]
  | append_singleton bytes b ih =>
    have hb := b.isLt
    rw [tableWordOf_append, List.length_append, List.length_singleton, Nat.mul_add, Nat.pow_add]
    omega

/-! ## Reading a word -/

/-- A word is read as the decoder of its bytes' level reads its bytes. -/
theorem decodeTableWord_eq_some {nbits w : Nat} {i : Instr} (h : decodeTableWord nbits w = some i) :
    decode (tableLevel (tableBytes nbits w)) (tableBytes nbits w) = .ok i := by
  unfold decodeTableWord at h
  split at h
  · split at h
    · next hdecode =>
      cases h
      exact hdecode
    · cases h
  · cases h

theorem decodeTableWord_of_bytes {bytes : List Byte} {i : Instr} (h : decode (tableLevel bytes) bytes = .ok i) :
    decodeTableWord (8 * bytes.length) (tableWordOf bytes) = some i := by
  simp [decodeTableWord, tableBytes_tableWordOf, tableWordOf_lt, h]

/-! ## The level of a word (log 6) -/

/-- Only a single byte can be a Framer word. -/
theorem exists_byte_of_tableLevel_framer {bytes : List Byte} (h : tableLevel bytes = .framer) : ∃ b, bytes = [b] := by
  match bytes with
  | [] => cases h
  | [b] => exact ⟨b, rfl⟩
  | _ :: _ :: _ => cases h

theorem tableLevel_of_high {b : Byte} (h : 0xF0 ≤ b.toNat) : tableLevel [b] = .interpreter := if_pos h

theorem tableLevel_of_low {b : Byte} (h : ¬ 0xF0 ≤ b.toNat) : tableLevel [b] = .framer := if_neg h

theorem tableLevel_encode {i : Instr} (h : i.level = .interpreter) : tableLevel (encode i) = .interpreter := by
  cases i with
  | status b => cases h
  | data b => cases h
  | system c =>
    refine tableLevel_of_high ?_
    rw [statusByteOf_toNat]
    exact Nat.le_add_right _ _
  | _ => rfl

theorem decodeTableWord_encode {i : Instr} (h : i.level = .interpreter) :
    decodeTableWord (8 * (encode i).length) (tableWordOf (encode i)) = some i :=
  decodeTableWord_of_bytes (by rw [tableLevel_encode h, decode_interpreter_encode h])

/-- A byte of 0xF0 or more, given to the Interpreter, is `system` (R70). -/
theorem decodeMessage_of_high {b : Byte} (h : 0xF0 ≤ b.toNat) :
    decodeMessage [b] = .ok (.system (b.extractLsb' 0 4)) := by
  have hkind : b.toNat / 16 = (kindOfCommand .system).toNat := by
    have := b.isLt
    change b.toNat / 16 = 15
    omega
  rw [decodeMessage_of_row (tableLookup_kindOf_eq_some.mpr hkind), extract_channelOf]
  rfl

/-! ## A message given directly -/

/-- A message given directly is what the step runs. -/
@[simp] theorem step_message (s : State) (m : RawMessage) (rest : List Input) :
    step (s.withInput (.message m :: rest)) = runMessage m (s.withInput rest) := rfl

theorem runMessage_of_decode {m : RawMessage} {i : Instr} (h : decodeMessage m = .ok i) (s : State) :
    runMessage m s = exec i s := by
  simp [runMessage, h]

/-! ## The obligations -/

/-- Settles O3: a command's word is read at its own level, and a single byte by the threshold 0xF0. -/
theorem tableWordOfEncode : Obligations.TableWordOfEncode := by
  intro i hwf
  cases i with
  | status b =>
    refine decodeTableWord_of_bytes (bytes := [b]) ?_
    split
    · next hhigh => rw [tableLevel_of_high hhigh, decode_interpreter_eq_ok, decodeMessage_of_high hhigh]
    · next hlow => rw [tableLevel_of_low hlow, decode, decodeByte_of_status (of_decide_eq_true hwf)]
  | data b =>
    have hb : b.toNat ≤ 127 := of_decide_eq_true hwf
    refine decodeTableWord_of_bytes (bytes := [b]) ?_
    rw [tableLevel_of_low (by omega), decode, decodeByte_of_data hb]
  | _ => exact decodeTableWord_encode rfl

/-- Settles O7: the step runs the message, and the message its command. -/
theorem messageRunsItsCommand : Obligations.MessageRunsItsCommand := by
  intro s m i rest h
  rw [step_message, runMessage_of_decode (decode_interpreter_eq_ok.mp h)]

/-- Settles O8: a Framer word is placed as a cycle that a running block takes, an Interpreter word as a message. -/
theorem placedWordRunsNext : Obligations.PlacedWordRunsNext := by
  intro s nbits w i hword hrun
  have hdecode := decodeTableWord_eq_some hword
  rw [State.withFetchWord, placeWord]
  cases hlevel : tableLevel (tableBytes nbits w) with
  | framer =>
    obtain ⟨b, hb⟩ := exists_byte_of_tableLevel_framer hlevel
    rw [hb] at hlevel hdecode ⊢
    rw [hlevel] at hdecode
    have hentries : entriesOf [b] = [.cycle (byteCycle b)] := by simp [entriesOf, hlevel]
    obtain rfl : decodeByte b = i := by simpa [decode] using hdecode
    rw [hentries]
    exact runCycle_byteCycle hrun b
  | interpreter =>
    rw [hlevel] at hdecode
    have hentries : entriesOf (tableBytes nbits w) = [.message (tableBytes nbits w)] := by simp [entriesOf, hlevel]
    rw [hentries]
    exact runMessage_of_decode (decode_interpreter_eq_ok.mp hdecode) s

end Sys2Proof.Machine
end

section
/-! The Interpreter used on its own: what it answers, from which states, and where it refuses (R100, R108, R109,
R123). -/

namespace Sys2Proof.Machine

/-! ## A message given directly is answered as R109 says -/

theorem runMessage_of_interpret_none {m : RawMessage} (h : interpret m = none) (s : State) :
    runMessage m s = .refused .outOfDomain := by
  simp [runMessage, decodeMessage_of_interpret_none h, answerReject]

theorem runMessage_of_interpret {m : RawMessage} {r : Result} (h : interpret m = some r) (s : State) :
    runMessage m s = .next (s.present { raw := m, result := r }) := by
  cases r with
  | err x => simp [runMessage, decodeMessage_of_interpret_err h, answerReject]
  | ok e =>
    obtain ⟨i, cmd, c, values, hi, rfl, rfl⟩ := exists_instr_of_interpret_ok h
    rw [runMessage_of_decode (decodeMessage_encode (level_of_commandOf hi)), exec_of_commandOf hi, presentCommand,
      encode_of_commandOf hi]

/-- A message given directly is answered in a state if and only if R109 gives it a result. -/
theorem runMessage_eq_next {m : RawMessage} {s t : State} :
    runMessage m s = .next t ↔ ∃ r, interpret m = some r ∧ t = s.present { raw := m, result := r } := by
  cases h : interpret m with
  | none => simp [runMessage_of_interpret_none h]
  | some r => simp [runMessage_of_interpret h, eq_comm]

/-- Presenting writes the port alone; a stopped block clears it (R25, R26). -/
theorem State.present_eq (s : State) (e : Emission) :
    s.present e = { s with port := if s.stopped then none else some e } := rfl

/-! ## The messages outside the domain (R108) -/

theorem interpret_cons_eq_none {b : Byte} {rest : List Byte} :
    interpret (b :: rest) = none ↔
      ∃ cmd, tableLookup (kindOf b) = some cmd ∧ (fieldsOfCommand cmd).length = rest.length ∧
        fieldValues rest = none := by
  cases hrow : tableLookup (kindOf b) with
  | none => simp [interpret_of_unknown hrow]
  | some cmd =>
    by_cases hlen : (fieldsOfCommand cmd).length = rest.length
    · simp [interpret_of_arity_eq hrow hlen, hlen]
    · simp [interpret_of_arity_ne hrow hlen, hlen]

theorem runMessage_refused_iff {m : RawMessage} {s : State} :
    (∃ why, runMessage m s = .refused why) ↔ interpret m = none := by
  cases h : interpret m with
  | none => simp [runMessage_of_interpret_none h]
  | some r => simp [runMessage_of_interpret h]

/-! ## The decoded event of a row -/

section
variable {cmd : Command} {values : List FieldValue} (hlen : values.length = (fieldsOfCommand cmd).length)
  (c : Channel) (raw : RawMessage)
include hlen

theorem length_fields_buildEvent : (buildEvent cmd c raw values).fields.length = (fieldsOfCommand cmd).length := by
  simp [buildEvent, hlen]

/-- Only `pitch-bend` has a derived value (R106). -/
theorem value_buildEvent : (buildEvent cmd c raw values).value.isSome = true ↔ cmd = .pitchBend := by
  constructor
  · intro h
    cases cmd with
    | pitchBend => rfl
    | _ => cases h
  · rintro rfl
    obtain ⟨lsb, msb, rfl⟩ := List.length_eq_two.mp hlen
    rfl

end

/-- A message of a row's kind and length, with data bytes after the first, decodes to the row's event (R105, R108). -/
theorem exists_event_of_row {b : Byte} {rest : List Byte} {cmd : Command} (hrow : tableLookup (kindOf b) = some cmd)
    (hlen : rest.length = (fieldsOfCommand cmd).length) (hdata : dataAfterFirst (b :: rest) = true) :
    ∃ e, interpret (b :: rest) = some (.ok e) ∧ e.fields.length = (fieldsOfCommand cmd).length ∧
      (e.value.isSome = true ↔ cmd = .pitchBend) := by
  have hnone : fieldValues rest ≠ none := by
    simpa [dataAfterFirst, isStatusByte, fieldValues_none] using hdata
  obtain ⟨values, hvalues⟩ := Option.ne_none_iff_exists'.mp hnone
  have hvlen : values.length = (fieldsOfCommand cmd).length := by
    rw [← hlen, fieldValues_some.mp hvalues, List.length_map]
  exact ⟨_, interpret_cons_eq_ok.mpr ⟨cmd, values, hrow, hlen.symm, hvalues, rfl⟩,
    length_fields_buildEvent hvlen _ _, value_buildEvent hvlen _ _⟩

/-! ## The ranges of the first byte (R123) -/

theorem exists_row_of_status {b : Byte} (h : 128 ≤ b.toNat) :
    ∃ cmd, tableLookup (kindOf b) = some cmd ∧ b.toNat / 16 = (kindOfCommand cmd).toNat := by
  cases hrow : tableLookup (kindOf b) with
  | none =>
    have := tableLookup_kindOf_eq_none.mp hrow
    omega
  | some cmd => exact ⟨cmd, rfl, tableLookup_kindOf_eq_some.mp hrow⟩

/-- The number of fields, and whether there is a derived value, by the kind's number (R27). -/
theorem fieldCount_of_kind (cmd : Command) :
    (fieldsOfCommand cmd).length =
      (if (kindOfCommand cmd).toNat = 15 then 0
       else if (kindOfCommand cmd).toNat = 12 ∨ (kindOfCommand cmd).toNat = 13 then 1 else 2) ∧
    (cmd = .pitchBend ↔ (kindOfCommand cmd).toNat = 14) := by
  cases cmd <;> decide

/-- The row of a status byte: its field count and whether it has a derived value, by the byte's kind. -/
theorem exists_row_by_kind {b : Byte} (h : 128 ≤ b.toNat) :
    ∃ cmd, tableLookup (kindOf b) = some cmd ∧
      (fieldsOfCommand cmd).length =
        (if b.toNat / 16 = 15 then 0 else if b.toNat / 16 = 12 ∨ b.toNat / 16 = 13 then 1 else 2) ∧
      (cmd = .pitchBend ↔ b.toNat / 16 = 14) := by
  obtain ⟨cmd, hrow, hkind⟩ := exists_row_of_status h
  obtain ⟨hcount, hbend⟩ := fieldCount_of_kind cmd
  rw [← hkind] at hcount hbend
  exact ⟨cmd, hrow, hcount, hbend⟩

/-! ## The obligations -/

/-- Settles O18: the decoder with the commands' meanings answers as R109, and a stopped block presents nothing. -/
theorem messageAnsweredByAlgorithm : Obligations.MessageAnsweredByAlgorithm := by
  intro s m rest
  rw [step_message]
  cases h : interpret m with
  | none => exact runMessage_of_interpret_none h _
  | some r => exact runMessage_of_interpret h _

/-- Settles O19: refusal is R109 having no result, which is a row's kind and length with a status byte among the
data. -/
theorem domainOfTheInterpreter : Obligations.DomainOfTheInterpreter := by
  intro s m rest
  rw [step_message, runMessage_refused_iff]
  cases m with
  | nil => simp
  | cons b data =>
    simp only [interpret_cons_eq_none, tableLookup_kindOf_eq_some, fieldValues_none]
    constructor
    · rintro ⟨cmd, hkind, hlen, hhigh⟩
      exact ⟨b, data, cmd, rfl, hkind.symm, hlen.symm, hhigh⟩
    · rintro ⟨b', data', cmd, hcons, hkind, hlen, hhigh⟩
      obtain ⟨rfl, rfl⟩ := List.cons.inj hcons
      exact ⟨cmd, hkind.symm, hlen.symm, hhigh⟩

/-- Settles O20: the row of the first byte gives the field count, and the length decides between event and error. -/
theorem resultByFirstByteAndLength : Obligations.ResultByFirstByteAndLength := by
  refine ⟨rfl, fun b rest => ⟨fun hlow => ?_, fun hrange => ?_, fun hrange => ?_, fun hrange => ?_⟩⟩
  · rw [interpret_of_unknown (tableLookup_kindOf_eq_none.mpr hlow), kindOf_eq_ofNat]
  · obtain ⟨cmd, hrow, hcount, hbend⟩ := exists_row_by_kind (b := b) (by omega)
    rw [if_neg (by omega), if_neg (by omega)] at hcount
    refine ⟨fun hlen hdata => ?_, fun hlen => ?_⟩
    · obtain ⟨e, he, hfields, hvalue⟩ := exists_event_of_row hrow (hlen.trans hcount.symm) hdata
      refine ⟨e, he, hfields.trans hcount, ?_⟩
      rw [hvalue, hbend]
      omega
    · rw [interpret_of_arity_ne hrow (by omega), hcount]
  · obtain ⟨cmd, hrow, hcount, hbend⟩ := exists_row_by_kind (b := b) (by omega)
    rw [if_neg (by omega), if_pos (by omega)] at hcount
    refine ⟨fun hlen hdata => ?_, fun hlen => ?_⟩
    · obtain ⟨e, he, hfields, hvalue⟩ := exists_event_of_row hrow (hlen.trans hcount.symm) hdata
      refine ⟨e, he, hfields.trans hcount, ?_⟩
      rw [← Option.not_isSome_iff_eq_none, hvalue, hbend]
      omega
    · rw [interpret_of_arity_ne hrow (by omega), hcount]
  · have := b.isLt
    obtain ⟨cmd, hrow, hcount, hbend⟩ := exists_row_by_kind (b := b) (by omega)
    rw [if_pos (by omega)] at hcount
    refine ⟨?_, fun hne => ?_⟩
    · rintro rfl
      obtain ⟨e, he, hfields, hvalue⟩ := exists_event_of_row (rest := []) hrow hcount.symm rfl
      refine ⟨e, he, List.length_eq_zero_iff.mp (hfields.trans hcount), ?_⟩
      rw [← Option.not_isSome_iff_eq_none, hvalue, hbend]
      omega
    · rw [interpret_of_arity_ne hrow fun hlen => hne (List.length_eq_zero_iff.mp (hlen.symm.trans hcount)), hcount]

/-- Settles O22: the result is the message's, and the stop flags alone decide whether it is presented. -/
theorem interpreterIsStateless : Obligations.InterpreterIsStateless := by
  intro s s' t m rest rest' hsame h
  obtain ⟨r, hr, rfl⟩ := runMessage_eq_next.mp h
  refine ⟨?_, rfl⟩
  rw [step_message, runMessage_of_interpret hr, State.present_eq, State.present_eq, State.stopped_withInput,
    State.stopped_withInput, hsame]
  rfl

/-- Settles O24: the sum form of the value, and its pair as remainder and quotient by 128. -/
theorem bendValueIsABijection : Obligations.BendValueIsABijection := by
  refine ⟨bendValue_toNat, fun v => ?_⟩
  simp only [bendValue_eq]
  exact ⟨_, _, ⟨rfl, rfl⟩, fun _ _ h => h⟩

/-- Settles O25: the algorithm's result for a command's own bytes is the event the command presents. -/
theorem closedCommandIsPresented : Obligations.ClosedCommandIsPresented := by
  intro i s b hlevel hrun hbuf
  obtain ⟨cmd, c, values, hi, hlen⟩ := exists_commandOf hlevel
  rw [encode_of_commandOf hi] at hbuf
  have hres := interpret_commandBytes cmd c values hlen
  rw [← hbuf] at hres
  have hne : s.buf ≠ [] := by simp [hbuf, commandBytes]
  rw [exec_of_commandOf hi, presentCommand_running hrun, ← hbuf]
  exact ⟨_, rfl, rfl, execStatus_of_emit hrun (emit_of_interpret hne hres) b⟩

end Sys2Proof.Machine
end

section
/-! Everything one event, one entry of the input and one step can do when they go on, and where they stop instead
(R32, R56, R57, R81 to R85, R108, R160). -/

namespace Sys2Proof.Machine

/-! ## One event in a running block -/

/-- What an event leads to in a running block: STATUS on an empty and on a non-empty buffer (R82), DATA with room (R83)
and on a full finite buffer (R85), END with a flush and without (R84). -/
inductive EventEffect (s : State) : InputEvent → State → Prop
  | opens (b : Byte) (hb : 128 ≤ b.toNat) (hbuf : s.buf = []) :
      EventEffect s (.byte b) ((s.withPort none).withBuf [b])
  | closes (b : Byte) (r : Result) (hb : 128 ≤ b.toNat) (hbuf : s.buf ≠ []) (hr : interpret s.buf = some r) :
      EventEffect s (.byte b) ((s.withPort (some { raw := s.buf, result := r })).withBuf [b])
  | appends (b : Byte) (hb : b.toNat ≤ 127) (hroom : s.params.msgCap ≠ some s.buf.length) :
      EventEffect s (.byte b) ((s.withPort none).withBuf (s.buf ++ [b]))
  | overflows (b : Byte) (hb : b.toNat ≤ 127) (hfull : s.params.msgCap = some s.buf.length) :
      EventEffect s (.byte b) ((s.withPort none).raise .bufferOverflow)
  | flushes (r : Result) (hflush : s.params.eosFlush = true) (hbuf : s.buf ≠ []) (hr : interpret s.buf = some r) :
      EventEffect s (.ended .eos)
        (((s.withPort (some { raw := s.buf, result := r })).withBuf []).raise (.streamFatal .eos))
  | ends (cause : Cause) (hkeep : ¬ (s.params.eosFlush = true ∧ cause = .eos ∧ s.buf ≠ [])) :
      EventEffect s (.ended cause) ((s.withPort none).raise (.streamFatal cause))

theorem eventEffect_of_execStatus {b : Byte} {s t : State} (hb : 128 ≤ b.toNat) (h : execStatus b s = .next t) :
    s.stopped = false ∧ EventEffect s (.byte b) t := by
  obtain ⟨hrun, u, hu, rfl⟩ := execStatus_next h
  obtain ⟨hbuf, rfl⟩ | ⟨hbuf, r, hr, rfl⟩ := emit_next hu
  · exact ⟨hrun, .opens b hb hbuf⟩
  · exact ⟨hrun, .closes b r hb hbuf hr⟩

theorem eventEffect_of_execData {b : Byte} {s t : State} (hb : b.toNat ≤ 127) (h : execData b s = .next t) :
    s.stopped = false ∧ EventEffect s (.byte b) t := by
  obtain ⟨hrun, ⟨hfull, rfl⟩ | ⟨hroom, rfl⟩⟩ := execData_next h
  · exact ⟨hrun, .overflows b hb hfull⟩
  · exact ⟨hrun, .appends b hb hroom⟩

theorem eventEffect_of_execEnd {cause : Cause} {s t : State} (h : execEnd cause s = .next t) :
    s.stopped = false ∧ EventEffect s (.ended cause) t := by
  obtain ⟨hrun, ⟨hflush, rfl, u, hu, rfl⟩ | ⟨hkeep, rfl⟩⟩ := execEnd_next h
  · refine ⟨hrun, ?_⟩
    obtain ⟨hbuf, rfl⟩ | ⟨hbuf, r, hr, rfl⟩ := emit_next hu
    · rw [State.withBuf_of_buf_eq (s := s.withPort none) hbuf]
      exact .ends .eos (by simp [hbuf])
    · exact .flushes r hflush hbuf hr
  · exact ⟨hrun, .ends cause fun ⟨hflush, hcause, _⟩ => hkeep ⟨hflush, hcause⟩⟩

theorem runEvent_of_eventEffect {ev : InputEvent} {s t : State} (hrun : s.stopped = false) (h : EventEffect s ev t) :
    runEvent ev s = .next t := by
  cases h with
  | opens b hb hbuf =>
    rw [runEvent_byte, if_pos hb]
    exact execStatus_of_emit hrun (emit_of_buf_nil hbuf) b
  | closes b r hb hbuf hr =>
    rw [runEvent_byte, if_pos hb]
    exact execStatus_of_emit hrun (emit_of_interpret hbuf hr) b
  | appends b hb hroom =>
    rw [runEvent_byte, if_neg (by omega)]
    exact execData_of_room hrun hroom b
  | overflows b hb hfull =>
    rw [runEvent_byte, if_neg (by omega)]
    exact execData_of_full hrun hfull b
  | flushes r hflush hbuf hr => exact execEnd_of_emit hrun hflush (emit_of_interpret hbuf hr)
  | ends cause hkeep =>
    by_cases hbuf : s.buf = []
    · exact execEnd_of_buf_nil hrun hbuf cause
    · exact execEnd_of_no_flush hrun fun ⟨hflush, hcause⟩ => hkeep ⟨hflush, hcause, hbuf⟩

theorem runEvent_eq_next {ev : InputEvent} {s t : State} :
    runEvent ev s = .next t ↔ s.stopped = false ∧ EventEffect s ev t := by
  refine ⟨fun h => ?_, fun ⟨hrun, h⟩ => runEvent_of_eventEffect hrun h⟩
  cases ev with
  | byte b =>
    rw [runEvent_byte] at h
    split at h
    · next hb => exact eventEffect_of_execStatus hb h
    · next hb => exact eventEffect_of_execData (by omega) h
  | ended cause => exact eventEffect_of_execEnd h

/-- An event goes on in a running block whose buffer has a result. -/
theorem exists_eventEffect {s : State} {r : Result} (hr : interpret s.buf = some r) (ev : InputEvent) :
    ∃ t, EventEffect s ev t := by
  cases ev with
  | byte b =>
    by_cases hb : 128 ≤ b.toNat
    · by_cases hbuf : s.buf = []
      · exact ⟨_, .opens b hb hbuf⟩
      · exact ⟨_, .closes b r hb hbuf hr⟩
    · by_cases hfull : s.params.msgCap = some s.buf.length
      · exact ⟨_, .overflows b (by omega) hfull⟩
      · exact ⟨_, .appends b (by omega) hfull⟩
  | ended cause =>
    by_cases hflush : s.params.eosFlush = true ∧ cause = .eos ∧ s.buf ≠ []
    · obtain ⟨hflush, rfl, hbuf⟩ := hflush
      exact ⟨_, .flushes r hflush hbuf hr⟩
    · exact ⟨_, .ends cause hflush⟩

/-- Where an event does not go on in a running block, the buffer is outside the Interpreter's domain (R108). -/
theorem runEvent_stops {s : State} (hrun : s.stopped = false) (ev : InputEvent) :
    (∃ t, runEvent ev s = .next t) ∨ (runEvent ev s = .refused .outOfDomain ∧ interpret s.buf = none) := by
  cases hr : interpret s.buf with
  | some r =>
    obtain ⟨t, ht⟩ := exists_eventEffect hr ev
    exact .inl ⟨t, runEvent_of_eventEffect hrun ht⟩
  | none =>
    have hbuf : s.buf ≠ [] := by
      intro hbuf
      simp [hbuf] at hr
    have hemit : emit s = .refused .outOfDomain := by simp [emit, hbuf, hr]
    cases ev with
    | byte b =>
      by_cases hb : 128 ≤ b.toNat
      · exact .inr ⟨by simp [runEvent_byte, hb, execStatus, hrun, hemit, andThen], rfl⟩
      · refine .inl ?_
        rw [runEvent_byte, if_neg hb]
        by_cases hfull : s.params.msgCap = some s.buf.length
        · exact ⟨_, execData_of_full hrun hfull b⟩
        · exact ⟨_, execData_of_room hrun hfull b⟩
    | ended cause =>
      by_cases hflush : s.params.eosFlush = true ∧ cause = .eos
      · exact .inr ⟨by simp [runEvent, execEnd, hrun, hflush, hemit, andThen], rfl⟩
      · exact .inl ⟨_, execEnd_of_no_flush hrun hflush⟩

/-! ## One entry of the input -/

/-- What one entry of the input does to the state whose input has moved past it. -/
def runEntry : Input → State → Host.Outcome State Fault Refusal
  | .cycle c => runCycle c
  | .message m => runMessage m

/-- What an entry leads to when it goes on: a reset, a cycle without a transfer, a cycle that takes its event, or the
answer to a message. -/
inductive EntryEffect (s : State) : Input → State → Prop
  | resets (c : CycleIn) (hrst : c.rst = true) : EntryEffect s (.cycle c) s.resetBlock
  | waits (c : CycleIn) (hrst : c.rst = false)
      (hidle : c.offered = [] ∨ ∃ ev, c.offered = [ev] ∧ s.srcReady c = false) : EntryEffect s (.cycle c) s.hold
  | takes (c : CycleIn) (ev : InputEvent) (t : State) (hrst : c.rst = false) (hoff : c.offered = [ev])
      (hready : s.srcReady c = true) (hrun : s.stopped = false) (hev : EventEffect s ev t) :
      EntryEffect s (.cycle c) t
  | answers (m : RawMessage) (r : Result) (hr : interpret m = some r) :
      EntryEffect s (.message m) (s.present { raw := m, result := r })

theorem runEntry_eq_next {i : Input} {s t : State} : runEntry i s = .next t ↔ EntryEffect s i t := by
  refine ⟨fun h => ?_, fun h => ?_⟩
  · cases i with
    | cycle c =>
      obtain ⟨hrst, rfl⟩ | ⟨hrst, rfl, hidle⟩ | ⟨hrst, ev, hoff, hready, hev⟩ := runCycle_next h
      · exact .resets c hrst
      · exact .waits c hrst hidle
      · obtain ⟨hrun, heffect⟩ := runEvent_eq_next.mp hev
        exact .takes c ev t hrst hoff hready hrun heffect
    | message m =>
      obtain ⟨r, hr, rfl⟩ := runMessage_eq_next.mp h
      exact .answers m r hr
  · cases h with
    | resets c hrst => exact runCycle_of_rst hrst s
    | waits c hrst hidle =>
      obtain hoff | ⟨ev, hoff, hready⟩ := hidle
      · exact runCycle_of_offered_nil hrst hoff s
      · simp [runEntry, runCycle_of_offered_singleton hrst hoff, hready]
    | takes c ev t hrst hoff hready hrun hev =>
      simp [runEntry, runCycle_of_offered_singleton hrst hoff, hready, runEvent_of_eventEffect hrun hev]
    | answers m r hr => exact runMessage_of_interpret hr s

/-! ## One step -/

theorem step_entry (s : State) (i : Input) (rest : List Input) :
    step (s.withInput (i :: rest)) = runEntry i (s.withInput rest) := by
  cases i <;> rfl

theorem step_of_input_nil {s : State} (h : s.input = []) : step s = .next s.hold := by
  simp [step, runNext, h]

theorem step_of_input_cons {s : State} {i : Input} {rest : List Input} (h : s.input = i :: rest) :
    step s = runEntry i (s.withInput rest) := by
  rw [← step_entry, ← h, State.withInput_self]

/-- A step that goes on waits with no input left, or does what its oldest entry does. -/
theorem step_eq_next {s t : State} :
    step s = .next t ↔
      (s.input = [] ∧ t = s.hold) ∨ ∃ i rest, s.input = i :: rest ∧ EntryEffect (s.withInput rest) i t := by
  cases hinput : s.input with
  | nil => simp [step_of_input_nil hinput, eq_comm]
  | cons i rest => simp [step_of_input_cons hinput, runEntry_eq_next]

theorem step_cycle_eq_next {s t : State} {c : CycleIn} {rest : List Input} :
    step (s.withInput (.cycle c :: rest)) = .next t ↔ EntryEffect (s.withInput rest) (.cycle c) t := by
  rw [step_entry, runEntry_eq_next]

/-- A running block takes an event that is offered with the sink ready. -/
theorem runCycle_eventCycle {s : State} (hrun : s.stopped = false) (ev : InputEvent) :
    runCycle (eventCycle ev) s = runEvent ev s := by
  simp [runCycle_of_sinkReady (rst_eventCycle ev) (sinkReady_eventCycle ev) (offered_eventCycle ev), hrun]

/-- An entry that offers one event to a running block with the sink ready does what the event does. -/
theorem entryEffect_eventCycle {s t : State} (hrun : s.stopped = false) {ev : InputEvent} :
    EntryEffect s (.cycle (eventCycle ev)) t ↔ EventEffect s ev t := by
  rw [← runEntry_eq_next, runEntry, runCycle_eventCycle hrun, runEvent_eq_next]
  exact and_iff_right hrun

theorem step_eventCycle_eq_next {s t : State} {ev : InputEvent} {rest : List Input} (hrun : s.stopped = false) :
    step (s.withInput (.cycle (eventCycle ev) :: rest)) = .next t ↔ EventEffect (s.withInput rest) ev t :=
  step_cycle_eq_next.trans (entryEffect_eventCycle (s := s.withInput rest) hrun)

/-! ## Where a step stops -/

theorem runCycle_of_multiHot {c : CycleIn} (hrst : c.rst = false) (hoff : 2 ≤ c.offered.length) (s : State) :
    runCycle c s = .refused .multiHot := by
  match hc : c.offered with
  | [] => simp [hc] at hoff
  | [_] => simp [hc] at hoff
  | _ :: _ :: _ => simp [runCycle, hrst, hc]

theorem runCycle_stops (c : CycleIn) (s : State) :
    (∃ t, runCycle c s = .next t) ∨
    (runCycle c s = .refused .multiHot ∧ c.rst = false ∧ 2 ≤ c.offered.length) ∨
    (runCycle c s = .refused .outOfDomain ∧ interpret s.buf = none) := by
  cases hrst : c.rst with
  | true => exact .inl ⟨_, runCycle_of_rst hrst s⟩
  | false =>
    match hc : c.offered with
    | [] => exact .inl ⟨_, runCycle_of_offered_nil hrst hc s⟩
    | [ev] =>
      rw [runCycle_of_offered_singleton hrst hc]
      split
      · next hready =>
        obtain ⟨hfatal, hfault, -⟩ := State.srcReady_eq_true.mp hready
        obtain hnext | hrefused := runEvent_stops (s.stopped_eq_false.mpr ⟨hfatal, hfault⟩) ev
        · exact .inl hnext
        · exact .inr (.inr hrefused)
      · exact .inl ⟨_, rfl⟩
    | ev :: ev' :: more =>
      refine .inr (.inl ⟨runCycle_of_multiHot hrst ?_ s, rfl, ?_⟩) <;> simp [hc]

/-- A step goes on, or it refuses: a multi-hot cycle (R32), a message outside the domain given directly, or one in the
buffer (R108). -/
theorem step_stops (s : State) :
    (∃ t, step s = .next t) ∨
    (step s = .refused .multiHot ∧ ∃ c, s.input.head? = some (.cycle c) ∧ c.rst = false ∧ 2 ≤ c.offered.length) ∨
    (step s = .refused .outOfDomain ∧
      ((∃ m, s.input.head? = some (.message m) ∧ interpret m = none) ∨ interpret s.buf = none)) := by
  match hinput : s.input with
  | [] => exact .inl ⟨_, step_of_input_nil hinput⟩
  | .cycle c :: rest =>
    rw [step_of_input_cons hinput]
    obtain hnext | ⟨hrefused, hmulti⟩ | ⟨hrefused, hbuf⟩ := runCycle_stops c (s.withInput rest)
    · exact .inl hnext
    · exact .inr (.inl ⟨hrefused, c, rfl, hmulti⟩)
    · exact .inr (.inr ⟨hrefused, .inr hbuf⟩)
  | .message m :: rest =>
    rw [step_of_input_cons hinput]
    cases hm : interpret m with
    | some r => exact .inl ⟨_, runMessage_of_interpret hm _⟩
    | none => exact .inr (.inr ⟨runMessage_of_interpret_none hm _, .inl ⟨m, rfl, hm⟩⟩)

end Sys2Proof.Machine
end

section
/-! The invariant of the machine (R22, R25, R26, R34), kept by every step, and what every step leaves unchanged. -/

namespace Sys2Proof.Machine

/-! ## The shape of the buffer under the Framer's writes (R22, R86) -/

theorem shapeOf_singleton_status {b : Byte} (hb : 128 ≤ b.toNat) : shapeOf [b] = some .message := by
  simp [shapeOf, isStatusByte, hb]

theorem shapeOf_append_data {b : Byte} (hb : b.toNat ≤ 127) (bytes : List Byte) :
    shapeOf (bytes ++ [b]) = (shapeOf bytes).map Shape.afterData := by
  have hdata : isStatusByte b = false := decide_eq_false (by omega)
  cases bytes with
  | nil => simp [shapeOf, hdata, Shape.afterData]
  | cons b0 rest =>
    cases hrest : rest.all (fun d => !isStatusByte d) <;> cases hfirst : isStatusByte b0 <;>
      simp [shapeOf, hrest, hfirst, hdata, Shape.afterData]

theorem shapeOf_eq_empty {bytes : List Byte} : shapeOf bytes = some .empty ↔ bytes = [] := by
  cases bytes with
  | nil => simp [shapeOf]
  | cons b rest =>
    simp only [shapeOf, reduceCtorEq, iff_false]
    split_ifs <;> simp

/-! ## What one event leaves, and what it presents -/

namespace EventEffect

variable {s t : State} {ev : InputEvent} (h : EventEffect s ev t)
include h

theorem params_eq : t.params = s.params := by
  cases h <;> simp

theorem input_eq : t.input = s.input := by
  cases h <;> simp

theorem shape_isSome (hshape : (shapeOf s.buf).isSome = true) : (shapeOf t.buf).isSome = true := by
  cases h with
  | opens b hb => simp [shapeOf_singleton_status hb]
  | closes b r hb => simp [shapeOf_singleton_status hb]
  | appends b hb => simpa [shapeOf_append_data hb] using hshape
  | overflows => simpa using hshape
  | flushes => rfl
  | ends => simpa using hshape

theorem port_answers {e : Emission} (hp : t.port = some e) : interpret e.raw = some e.result := by
  cases h with
  | closes b r hb hbuf hr =>
    cases hp
    exact hr
  | flushes r hflush hbuf hr =>
    cases hp
    exact hr
  | _ => cases hp

/-- A status byte starts a buffer of length 1, and a data byte is stored only below the capacity (R21, R83). -/
theorem buf_fits (hwf : s.params.wf = true) (hfits : ∀ n, s.params.msgCap = some n → s.buf.length ≤ n) (n : Nat)
    (hcap : s.params.msgCap = some n) : t.buf.length ≤ n := by
  have hthree : 3 ≤ n := by simpa [Params.wf, hcap] using hwf
  have hlen := hfits n hcap
  cases h with
  | opens =>
    simp only [State.withBuf_buf, List.length_singleton]
    omega
  | closes =>
    simp only [State.withBuf_buf, List.length_singleton]
    omega
  | appends b hb hroom =>
    have hne : n ≠ s.buf.length := by simpa [hcap] using hroom
    simp only [State.withBuf_buf, List.length_append, List.length_singleton]
    omega
  | overflows => simpa using hlen
  | flushes => exact Nat.zero_le n
  | ends => simpa using hlen

/-- Only the overflow sets `fault`, and it needs a full buffer, which it keeps (R85). -/
theorem fault_full (hrun : s.stopped = false) (hfault : t.fault = true) :
    (∃ b, ev = .byte b ∧ b.toNat ≤ 127) ∧ s.params.msgCap = some s.buf.length ∧ t.buf = s.buf ∧ t.fatal = false := by
  obtain ⟨hfatal, hnofault⟩ := s.stopped_eq_false.mp hrun
  cases h with
  | overflows b hb hfull => exact ⟨⟨b, rfl, hb⟩, hfull, rfl, hfatal⟩
  | _ => simp [hnofault] at hfault

/-- Only an end of the stream sets `fatal`, with its cause (R84). -/
theorem fatal_cause (hrun : s.stopped = false) :
    t.fatal = true ∧ ev = .ended t.fatalCause ∨ t.fatal = false ∧ t.fatalCause = s.fatalCause := by
  obtain ⟨hfatal, -⟩ := s.stopped_eq_false.mp hrun
  cases h with
  | flushes => exact .inl ⟨rfl, rfl⟩
  | ends cause => exact .inl ⟨rfl, rfl⟩
  | _ => exact .inr ⟨hfatal, rfl⟩

theorem inv (hrun : s.stopped = false) (hinv : s.Inv) : t.Inv where
  params_wf := by
    rw [h.params_eq]
    exact hinv.params_wf
  buf_shape := h.shape_isSome hinv.buf_shape
  buf_fits := by
    rw [h.params_eq]
    exact h.buf_fits hinv.params_wf hinv.buf_fits
  fault_full hfault := by
    obtain ⟨-, hfull, hbuf, -⟩ := h.fault_full hrun hfault
    rw [h.params_eq, hbuf, hfull]
  one_stop := by
    rintro ⟨hfatal, hfault⟩
    obtain ⟨-, -, -, hnofatal⟩ := h.fault_full hrun hfault
    simp [hnofatal] at hfatal
  cause_reset hfatal := by
    obtain ⟨hset, -⟩ | ⟨-, hcause⟩ := h.fatal_cause hrun
    · simp [hfatal] at hset
    · rw [hcause]
      exact hinv.cause_reset (s.stopped_eq_false.mp hrun).1
  port_answers _ := h.port_answers

end EventEffect

/-! ## The invariant under the machine's other writes -/

theorem State.Inv.withPort {s : State} (hinv : s.Inv) {out : Option Emission}
    (hout : ∀ e, out = some e → interpret e.raw = some e.result) : (s.withPort out).Inv :=
  ⟨hinv.params_wf, hinv.buf_shape, hinv.buf_fits, hinv.fault_full, hinv.one_stop, hinv.cause_reset, hout⟩

theorem State.Inv.withInput {s : State} (hinv : s.Inv) (input : List Input) : (s.withInput input).Inv :=
  ⟨hinv.params_wf, hinv.buf_shape, hinv.buf_fits, hinv.fault_full, hinv.one_stop, hinv.cause_reset, hinv.port_answers⟩

theorem State.Inv.hold {s : State} (hinv : s.Inv) : s.hold.Inv :=
  hinv.withPort fun _ h => by cases h

theorem State.Inv.present {s : State} (hinv : s.Inv) {e : Emission} (he : interpret e.raw = some e.result) :
    (s.present e).Inv :=
  hinv.withPort fun e' h => by
    obtain ⟨-, rfl⟩ := (State.present_port s).mp h
    exact he

/-- Reset leaves nothing of the state that came before but its parameters (R36, R160). -/
theorem State.inv_resetBlock {s : State} (hwf : s.params.wf = true) : s.resetBlock.Inv where
  params_wf := hwf
  buf_shape := rfl
  buf_fits n _ := Nat.zero_le n
  fault_full h := by cases h
  one_stop h := by cases h.1
  cause_reset _ := rfl
  port_answers _ h := by cases h

theorem EntryEffect.inv {s t : State} {i : Input} (h : EntryEffect s i t) (hinv : s.Inv) : t.Inv := by
  cases h with
  | resets c => exact State.inv_resetBlock hinv.params_wf
  | waits c => exact hinv.hold
  | takes c ev t hrst hoff hready hrun hev => exact hev.inv hrun hinv
  | answers m r hr => exact hinv.present hr

/-! ## The obligations -/

/-- Settles O38: each entry's effect keeps the invariant, an event's field by field. -/
theorem invariantKeptByStep : Obligations.InvariantKeptByStep := by
  intro s t hinv h
  obtain ⟨-, rfl⟩ | ⟨i, rest, -, heffect⟩ := step_eq_next.mp h
  · exact hinv.hold
  · exact heffect.inv (hinv.withInput rest)

/-- Settles O39: it is the state a reset of these parameters and this input leads to. -/
theorem invariantAtReset : Obligations.InvariantAtReset := by
  intro p input hwf
  exact State.inv_resetBlock (s := { State.reset with params := p, input := input }) hwf

end Sys2Proof.Machine
end

section
/-! What a cycle adds to the bytes accepted so far (R51). -/

namespace Sys2Proof.Machine

/-- The byte an event brings, if it is one. -/
def InputEvent.bytes : InputEvent → List Byte
  | .byte b => [b]
  | .ended _ => []

/-- What an event presents, followed by the buffer it leaves, is the buffer it found followed by its byte. -/
theorem EventEffect.conserves {s t : State} {ev : InputEvent} (h : EventEffect s ev t) (hfault : t.fault = false) :
    (t.port.map Emission.raw).toList.flatten ++ t.buf = s.buf ++ ev.bytes := by
  cases h with
  | overflows => cases hfault
  | opens b hb hbuf => simp [InputEvent.bytes, hbuf]
  | _ => simp [InputEvent.bytes]

theorem byte_mem_offered {c : CycleIn} {b : Byte} : .byte b ∈ c.offered ↔ c.srcValid = true ∧ b = c.srcByte := by
  simp [CycleIn.offered]

/-- The byte of a cycle's one event is `src_byte`, if `src_valid` is 1 (R32). -/
theorem bytes_of_offered_singleton {c : CycleIn} {ev : InputEvent} (hoff : c.offered = [ev]) :
    ev.bytes = if c.srcValid then [c.srcByte] else [] := by
  have hmem (b : Byte) : .byte b = ev ↔ c.srcValid = true ∧ b = c.srcByte := by
    rw [← byte_mem_offered, hoff, List.mem_singleton]
  cases ev with
  | byte b =>
    obtain ⟨hvalid, rfl⟩ := (hmem b).mp rfl
    simp [InputEvent.bytes, hvalid]
  | ended cause =>
    have hvalid : c.srcValid = false := by simpa using hmem c.srcByte
    simp [InputEvent.bytes, hvalid]

/-- A cycle without a transfer accepts no byte. -/
theorem not_accepts_of_idle {s : State} {c : CycleIn}
    (hidle : c.offered = [] ∨ ∃ ev, c.offered = [ev] ∧ s.srcReady c = false) :
    (s.srcReady c && c.srcValid) = false := by
  obtain hoff | ⟨ev, -, hready⟩ := hidle
  · obtain ⟨hvalid, -, -⟩ := offered_eq_nil.mp hoff
    simp [hvalid]
  · simp [hready]

/-- Settles O54: a cycle that waits changes nothing, and an event conserves its byte. -/
theorem acceptedBytesConserved : Obligations.AcceptedBytesConserved := by
  intro s t c rest accepted out hrst h hfault haccepted
  cases step_cycle_eq_next.mp h with
  | resets c hset => simp [hrst] at hset
  | waits c _ hidle =>
    rw [State.srcReady_withInput] at hidle
    simpa [not_accepts_of_idle hidle] using haccepted
  | takes c ev t _ hoff hready hrun hev =>
    rw [State.srcReady_withInput] at hready
    calc (out ++ (t.port.map Emission.raw).toList).flatten ++ t.buf
      _ = out.flatten ++ ((t.port.map Emission.raw).toList.flatten ++ t.buf) := by simp
      _ = out.flatten ++ (s.buf ++ ev.bytes) := by rw [hev.conserves hfault, State.withInput_buf]
      _ = accepted ++ (if s.srcReady c && c.srcValid then [c.srcByte] else []) := by
        rw [← List.append_assoc, haccepted, bytes_of_offered_singleton hoff, hready, Bool.true_and]

end Sys2Proof.Machine
end

section
/-! One step, whatever it is: what it consumes, what it does to the stop flags, where it stops (R24, R25, R26, R32, R48,
R91), and what the level outputs show (R35, R36). -/

namespace Sys2Proof.Machine

/-! ## What every entry keeps -/

namespace EntryEffect

variable {s t : State} {i : Input} (h : EntryEffect s i t)
include h

theorem params_eq : t.params = s.params := by
  cases h with
  | takes c ev t hrst hoff hready hrun hev => exact hev.params_eq
  | _ => rfl

theorem input_eq : t.input = s.input := by
  cases h with
  | takes c ev t hrst hoff hready hrun hev => exact hev.input_eq
  | _ => rfl

end EntryEffect

/-! ## The events of a cycle's signals -/

theorem two_le_length_offered {c : CycleIn} :
    2 ≤ c.offered.length ↔
      (c.srcValid = true ∧ c.srcEos = true ∨ c.srcValid = true ∧ c.srcErr = true ∨
        c.srcEos = true ∧ c.srcErr = true) := by
  cases hvalid : c.srcValid <;> cases heos : c.srcEos <;> cases herr : c.srcErr <;>
    simp [CycleIn.offered, hvalid, heos, herr]

/-- A stopped block holds in every cycle without reset that is within the contract (R91). -/
theorem runCycle_of_stopped {s : State} {c : CycleIn} (hstop : s.stopped = true) (hrst : c.rst = false)
    (hoff : c.offered.length ≤ 1) : runCycle c s = .next s.hold := by
  match hc : c.offered with
  | [] => exact runCycle_of_offered_nil hrst hc s
  | [ev] => simp [runCycle_of_offered_singleton hrst hc, State.srcReady_of_stopped hstop]
  | _ :: _ :: _ => simp [hc] at hoff

theorem execStatus_of_stopped {s : State} (hstop : s.stopped = true) (b : Byte) : execStatus b s = .fault .stopped :=
  if_pos hstop

theorem execData_of_stopped {s : State} (hstop : s.stopped = true) (b : Byte) : execData b s = .fault .stopped :=
  if_pos hstop

theorem execEnd_of_stopped {s : State} (hstop : s.stopped = true) (cause : Cause) :
    execEnd cause s = .fault .stopped := if_pos hstop

/-! ## What an event shows -/

/-- An end of the stream leaves `fatal` set with its cause, and `fault` as it was (R84). -/
theorem EventEffect.ended_flags {s t : State} {cause : Cause} (h : EventEffect s (.ended cause) t) :
    t.fatal = true ∧ t.fatalCause = cause ∧ t.fault = s.fault := by
  cases h <;> exact ⟨rfl, rfl, rfl⟩

/-- The message an end of the stream presents (R84). -/
theorem EventEffect.ended_raw {s t : State} {cause : Cause} (h : EventEffect s (.ended cause) t) :
    t.port.map Emission.raw =
      if s.params.eosFlush = true ∧ cause = .eos ∧ s.buf ≠ [] then some s.buf else none := by
  cases h with
  | flushes r hflush hbuf => rw [if_pos ⟨hflush, rfl, hbuf⟩]; rfl
  | ends _ hkeep => rw [if_neg hkeep]; rfl

/-- A status byte presents the buffer unless it is empty, and is then alone in the buffer (R82). -/
theorem EventEffect.status_raw {s t : State} {b : Byte} (h : EventEffect s (.byte b) t) (hb : 128 ≤ b.toNat) :
    t.buf = [b] ∧ t.stopped = s.stopped ∧ t.port.map Emission.raw = if s.buf = [] then none else some s.buf := by
  cases h with
  | opens _ _ hbuf => exact ⟨rfl, rfl, by rw [if_pos hbuf]; rfl⟩
  | closes _ r _ hbuf => exact ⟨rfl, rfl, by rw [if_neg hbuf]; rfl⟩
  | appends => omega
  | overflows => omega

/-- A data byte presents nothing; it is appended, or it overflows a full buffer, which is kept (R83, R85). -/
theorem EventEffect.data_cases {s t : State} {b : Byte} (h : EventEffect s (.byte b) t) (hb : b.toNat ≤ 127) :
    (s.params.msgCap ≠ some s.buf.length ∧ t = (s.withPort none).withBuf (s.buf ++ [b])) ∨
    (s.params.msgCap = some s.buf.length ∧ t = (s.withPort none).raise .bufferOverflow) := by
  cases h with
  | opens => omega
  | closes => omega
  | appends _ _ hroom => exact .inl ⟨hroom, rfl⟩
  | overflows _ _ hfull => exact .inr ⟨hfull, rfl⟩

theorem levelPort_eq {s : State} {fatal fault : Bool} {cause : Cause} (hfatal : s.fatal = fatal)
    (hcause : s.fatalCause = cause) (hfault : s.fault = fault) :
    levelPort s = { fatal := BitVec.ofBool fatal, fatalCause := cause.code, fault := BitVec.ofBool fault } := by
  rw [levelPort, hfatal, hcause, hfault]

/-! ## The obligations -/

/-- Settles O30: the three kinds of event from a shape, STATUS, DATA and END. -/
theorem framerTransitions : Obligations.FramerTransitions := by
  intro s t rest shape hrun hshape
  have hempty : shape = .empty ↔ s.buf = [] := by rw [← shapeOf_eq_empty, hshape, Option.some_inj]
  refine ⟨fun b h hfault => ?_, fun cause h => ?_⟩
  · have hev := (step_eventCycle_eq_next (ev := .byte b) hrun).mp h
    refine ⟨fun hb => ?_, fun hb => ?_⟩
    · obtain ⟨-, rfl⟩ | ⟨-, rfl⟩ := hev.data_cases hb
      · exact ⟨rfl, by simp [shapeOf_append_data hb, hshape]⟩
      · cases hfault
    · obtain ⟨hbuf, -, hraw⟩ := hev.status_raw hb
      rw [State.withInput_buf] at hraw
      simp only [hbuf, shapeOf_singleton_status hb, hraw, hempty, and_self]
  · have hev := (step_eventCycle_eq_next (ev := .ended cause) hrun).mp h
    obtain ⟨hfatal, -, -⟩ := hev.ended_flags
    exact ⟨hfatal, hev.ended_raw.trans (if_congr (by simp [hempty]) rfl rfl)⟩

/-- Settles O35: of the three ways a cycle can stop or go on, more than one event offered is the multi-hot one. -/
theorem multiHotCycleRefused : Obligations.MultiHotCycleRefused := by
  intro s c rest
  refine ⟨fun hrst => ?_, fun hrst => runCycle_of_rst hrst _⟩
  rw [step_cycle, ← two_le_length_offered]
  refine ⟨fun h => ?_, fun hoff => runCycle_of_multiHot hrst hoff _⟩
  obtain ⟨t, ht⟩ | ⟨-, -, hoff⟩ | ⟨hrefused, -⟩ := runCycle_stops c (s.withInput rest)
  · simp [ht] at h
  · exact hoff
  · simp [hrefused] at h

/-- Settles O40: reset clears both flags, an event sets at most its own, and everything else leaves them. -/
theorem stopFlagsSetAndCleared : Obligations.StopFlagsSetAndCleared := by
  intro s t h
  obtain ⟨-, rfl⟩ | ⟨i, rest, hinput, heffect⟩ := step_eq_next.mp h
  · simp +contextual
  · rw [hinput, List.head?_cons]
    cases heffect with
    | resets c hrst => exact ⟨fun _ _ => ⟨c, rfl, hrst⟩, fun _ _ => ⟨c, rfl, hrst⟩, by simp, by simp, by simp⟩
    | waits => simp +contextual
    | answers => simp +contextual
    | takes c ev t hrst hoff hready hrun hev =>
      obtain ⟨hfatal, hfault⟩ : s.fatal = false ∧ s.fault = false := s.stopped_eq_false.mp hrun
      refine ⟨by simp [hfatal], by simp [hfault], fun _ hset => ?_, fun _ hset => ?_, by simp [hfatal]⟩
      · obtain ⟨-, hcause⟩ | ⟨hclear, -⟩ := hev.fatal_cause hrun
        · exact ⟨c, t.fatalCause, rfl, hcause ▸ hoff, rfl⟩
        · simp [hset] at hclear
      · obtain ⟨⟨b, rfl, hb⟩, hfull, hbuf, -⟩ := hev.fault_full hrun hset
        exact ⟨c, b, rfl, hoff, hb, hfull, hbuf⟩

/-- Settles O41: a step goes on or refuses, and under the invariant the buffer has a result. -/
theorem stepStopsOnlyWhereRefused : Obligations.StepStopsOnlyWhereRefused := by
  refine ⟨fun s f h => ?_, fun s r hinv h => ?_⟩
  · obtain ⟨t, ht⟩ | ⟨hrefused, -⟩ | ⟨hrefused, -⟩ := step_stops s
    · simp [ht] at h
    · simp [hrefused] at h
    · simp [hrefused] at h
  · obtain ⟨t, ht⟩ | ⟨hrefused, hmulti⟩ | ⟨hrefused, hmessage | hbuf⟩ := step_stops s
    · simp [ht] at h
    · rw [hrefused] at h
      exact .inl ⟨by simpa using h.symm, hmulti⟩
    · rw [hrefused] at h
      exact .inr ⟨by simpa using h.symm, hmessage⟩
    · obtain ⟨r, hr⟩ := exists_interpret_of_shape hinv.buf_shape
      simp [hbuf] at hr

/-- Settles O42: an entry's effect writes neither the rest of the input nor the parameters. -/
theorem stepConsumesOneInput : Obligations.StepConsumesOneInput := by
  refine ⟨fun s t h => ?_, fun s => step_of_input_nil rfl⟩
  obtain ⟨hinput, rfl⟩ | ⟨i, rest, hinput, heffect⟩ := step_eq_next.mp h
  · simp [hinput]
  · rw [heffect.input_eq, heffect.params_eq, hinput]
    exact ⟨rfl, rfl⟩

/-- Settles O56: in a stopped block an entry resets or holds, and a command presents nothing. -/
theorem stoppedBlockPresentsNothing : Obligations.StoppedBlockPresentsNothing := by
  refine ⟨fun s t hstop h => ?_, fun i s hlevel hstop => ?_⟩
  · obtain ⟨hinput, rfl⟩ | ⟨c, rest, hinput, hcycle⟩ | ⟨m, rest, hinput, hmessage⟩ := step_next h
    · refine ⟨rfl, .inr ?_⟩
      rw [hinput, List.tail_nil, ← hinput]
      rfl
    · rw [hinput, List.head?_cons]
      obtain hrst | rfl := rst_or_eq_hold_of_runCycle_of_stopped (s := s.withInput rest) hstop hcycle
      · rw [runCycle_of_rst hrst] at hcycle
        cases hcycle
        exact ⟨rfl, .inl ⟨c, rfl, hrst⟩⟩
      · exact ⟨rfl, .inr rfl⟩
    · obtain rfl := eq_hold_of_runMessage_of_stopped (s := s.withInput rest) hstop hmessage
      rw [hinput]
      exact ⟨rfl, .inr rfl⟩
  · obtain ⟨cmd, c, values, hi, -⟩ := exists_commandOf hlevel
    rw [exec_of_commandOf hi, presentCommand, s.present_stopped _ hstop]
    rfl

/-- Settles O27: STATUS needs a running block, and a buffer with no result has a status byte in a data position. -/
theorem statusStops : Obligations.StatusStops := by
  refine fun b s => ⟨fun hstop => execStatus_of_stopped hstop b, fun hrun hbuf hnone => ⟨?_, ?_⟩⟩
  · simp [execStatus, hrun, emit, hbuf, hnone, andThen]
  · by_contra hshape
    obtain ⟨r, hr⟩ := exists_interpret_of_shape (Option.isSome_iff_ne_none.mpr hshape)
    simp [hnone] at hr

/-- Settles O31: a stopped block is not ready, so its cycles hold, and the three operations need a running block. -/
theorem stoppedUntilReset : Obligations.StoppedUntilReset := by
  intro s c b cause rest hstop hrst hoff
  exact ⟨State.srcReady_of_stopped hstop c, runCycle_of_stopped (s := s.withInput rest) hstop hrst hoff,
    execStatus_of_stopped hstop b, execData_of_stopped hstop b, execEnd_of_stopped hstop cause⟩

/-- Settles O37: nothing is presented after reset, and every position of `msg_byte` is padding. -/
theorem resetState : Obligations.ResetState := by
  refine ⟨rfl, rfl, fun c => rfl, fun lenW cap => ⟨rfl, rfl, rfl, fun b hb => ?_⟩⟩
  cases cap with
  | none => cases hb
  | some n => exact List.eq_of_mem_replicate (by simpa [rawPort, State.reset, paddedBytes] using hb)

/-- Settles O53: the port is the flags, and END, an overflow and a reset each leave the flags their rule gives. -/
theorem levelOutputsShowFlags : Obligations.LevelOutputsShowFlags := by
  refine ⟨fun s => ?_, fun s cause rest hrun hshape => ?_, fun s b rest hrun hb hfull => ?_, fun s c rest hrst _ => ?_⟩
  · cases hfatal : s.fatal <;> cases hfault : s.fault <;> cases hcause : s.fatalCause <;>
      simp [levelPort, hfatal, hfault, hcause, Cause.code]
  · obtain ⟨r, hr⟩ := exists_interpret_of_shape hshape
    obtain ⟨t, hev⟩ := exists_eventEffect (s := s.withInput rest) hr (.ended cause)
    obtain ⟨hfatal, hcause, hfault⟩ := hev.ended_flags
    refine ⟨t, (step_eventCycle_eq_next (ev := .ended cause) hrun).mpr hev, ?_⟩
    rw [levelPort_eq hfatal hcause (hfault.trans (s.stopped_eq_false.mp hrun).2)]
    cases cause <;> rfl
  · refine ⟨_, (step_eventCycle_eq_next (ev := .byte b) hrun).mpr (.overflows b hb hfull), ?_⟩
    have hfatal : (((s.withInput rest).withPort none).raise .bufferOverflow).fatal = false :=
      (s.stopped_eq_false.mp hrun).1
    exact levelPort_eq hfatal rfl rfl
  · exact ⟨_, runCycle_of_rst hrst _, rfl⟩

end Sys2Proof.Machine
end

section
/-! Runs: one entry at a time, one run after another, and what a run keeps (R172). -/

namespace Sys2Proof.Machine

/-! ## Two states that differ in the port and the remaining input only -/

/-- `s'` is `s` but for what the ports presented last and what the environment does next. -/
def SameBlock (s s' : State) : Prop := ∃ out rest, s' = (s.withPort out).withInput rest

namespace SameBlock

theorem refl (s : State) : SameBlock s s := ⟨s.port, s.input, rfl⟩

variable {s s' s'' : State} (h : SameBlock s s')
include h

theorem trans (h' : SameBlock s' s'') : SameBlock s s'' := by
  obtain ⟨out, rest, rfl⟩ := h
  obtain ⟨out', rest', rfl⟩ := h'
  exact ⟨out', rest', rfl⟩

theorem params_eq : s'.params = s.params := by obtain ⟨out, rest, rfl⟩ := h; rfl
theorem buf_eq : s'.buf = s.buf := by obtain ⟨out, rest, rfl⟩ := h; rfl
theorem fatal_eq : s'.fatal = s.fatal := by obtain ⟨out, rest, rfl⟩ := h; rfl
theorem fatalCause_eq : s'.fatalCause = s.fatalCause := by obtain ⟨out, rest, rfl⟩ := h; rfl
theorem fault_eq : s'.fault = s.fault := by obtain ⟨out, rest, rfl⟩ := h; rfl
theorem stopped_eq : s'.stopped = s.stopped := by obtain ⟨out, rest, rfl⟩ := h; rfl

end SameBlock

theorem sameBlock_hold (s : State) : SameBlock s s.hold := ⟨none, s.input, rfl⟩

theorem sameBlock_withInput (s : State) (rest : List Input) : SameBlock s (s.withInput rest) := ⟨s.port, rest, rfl⟩

/-- No event reads what was presented before it, nor what comes after it (log 1, log 5). -/
theorem EventEffect.reframe {s t : State} {ev : InputEvent} (h : EventEffect s ev t) (out : Option Emission)
    (rest : List Input) : EventEffect ((s.withPort out).withInput rest) ev (t.withInput rest) := by
  cases h with
  | opens b hb hbuf => exact .opens b hb hbuf
  | closes b r hb hbuf hr => exact .closes b r hb hbuf hr
  | appends b hb hroom => exact .appends b hb hroom
  | overflows b hb hfull => exact .overflows b hb hfull
  | flushes r hflush hbuf hr => exact .flushes r hflush hbuf hr
  | ends cause hkeep => exact .ends cause hkeep

theorem EntryEffect.reframe {s t : State} {i : Input} (h : EntryEffect s i t) (out : Option Emission)
    (rest : List Input) : EntryEffect ((s.withPort out).withInput rest) i (t.withInput rest) := by
  cases h with
  | resets c hrst => exact .resets c hrst
  | waits c hrst hidle => exact .waits c hrst hidle
  | takes c ev t hrst hoff hready hrun hev => exact .takes c ev _ hrst hoff hready hrun (hev.reframe out rest)
  | answers m r hr => exact .answers m r hr

/-! ## A run, entry by entry -/

/-- A run over `i :: rest` is the effect of `i` and then the run over `rest`. -/
theorem observeInputs_cons {s u : State} {i : Input} {rest : List Input} {es : List Emission} :
    observeInputs s (i :: rest) = .next (es, u) ↔
      ∃ t es', EntryEffect s i t ∧ observeInputs t rest = .next (es', u) ∧ es = t.port.toList ++ es' := by
  constructor
  · intro h
    obtain ⟨t, es', hstep, hrest, rfl⟩ := observe_succ_next h
    rw [step_entry, runEntry_eq_next] at hstep
    have hinput : t.withInput rest = t := by
      rw [← show t.input = rest from hstep.input_eq, State.withInput_self]
    rw [← hinput] at hrest
    exact ⟨t.withInput s.input, es', hstep.reframe s.port s.input, hrest, rfl⟩
  · rintro ⟨t, es', hentry, hrest, rfl⟩
    refine observe_succ (t := t.withInput rest) ?_ hrest
    rw [step_entry, runEntry_eq_next]
    exact hentry.reframe s.port rest

/-- One run after another is a run. -/
theorem observeInputs_append {s t u : State} {before after : List Input} {es es' : List Emission}
    (h : observeInputs s before = .next (es, t)) (h' : observeInputs t after = .next (es', u)) :
    observeInputs s (before ++ after) = .next (es ++ es', u) := by
  induction before generalizing s es with
  | nil =>
    cases h
    exact h'
  | cons i rest ih =>
    obtain ⟨v, esv, hentry, hrest, rfl⟩ := observeInputs_cons.mp h
    exact observeInputs_cons.mpr ⟨v, esv ++ es', hentry, ih hrest, List.append_assoc _ _ _⟩

/-- What each entry of a run keeps, the run keeps. -/
theorem observeInputs_keeps {P : State → Prop} {inputs : List Input}
    (hentry : ∀ i ∈ inputs, ∀ s t, P s → EntryEffect s i t → P t) (hinput : ∀ t, P t → P (t.withInput []))
    {s t : State} {es : List Emission} (h : observeInputs s inputs = .next (es, t)) (hs : P s) : P t := by
  induction inputs generalizing s es with
  | nil =>
    cases h
    exact hinput s hs
  | cons i rest ih =>
    obtain ⟨v, esv, hfirst, hrest, -⟩ := observeInputs_cons.mp h
    exact ih (fun j hj => hentry j (List.mem_cons_of_mem i hj)) hrest (hentry i List.mem_cons_self s v hs hfirst)

theorem observeInputs_inv {s t : State} {inputs : List Input} {es : List Emission}
    (h : observeInputs s inputs = .next (es, t)) (hinv : s.Inv) : t.Inv :=
  observeInputs_keeps (P := State.Inv) (fun _ _ _ _ hs hentry => hentry.inv hs) (fun _ hs => hs.withInput []) h hinv

theorem observeInputs_params {s t : State} {inputs : List Input} {es : List Emission}
    (h : observeInputs s inputs = .next (es, t)) : t.params = s.params :=
  observeInputs_keeps (P := fun u => u.params = s.params) (fun _ _ _ _ hs hentry => hentry.params_eq.trans hs)
    (fun _ hs => hs) h rfl

theorem observeInputs_input {s t : State} {inputs : List Input} {es : List Emission}
    (h : observeInputs s inputs = .next (es, t)) : t.input = [] := by
  induction inputs generalizing s es with
  | nil =>
    cases h
    rfl
  | cons i rest ih =>
    obtain ⟨v, esv, -, hrest, -⟩ := observeInputs_cons.mp h
    exact ih hrest

theorem EntryEffect.port_answers {s t : State} {i : Input} (h : EntryEffect s i t) {e : Emission}
    (hp : t.port = some e) : interpret e.raw = some e.result := by
  cases h with
  | resets => cases hp
  | waits => cases hp
  | takes c ev t hrst hoff hready hrun hev => exact hev.port_answers hp
  | answers m r hr =>
    obtain ⟨-, rfl⟩ := (State.present_port s).mp hp
    exact hr

/-- Every message a run presents carries the Interpreter's result for it (R118). -/
theorem observeInputs_answers {s t : State} {inputs : List Input} {es : List Emission}
    (h : observeInputs s inputs = .next (es, t)) {e : Emission} (he : e ∈ es) : interpret e.raw = some e.result := by
  induction inputs generalizing s es with
  | nil =>
    cases h
    cases he
  | cons i rest ih =>
    obtain ⟨v, esv, hentry, hrest, rfl⟩ := observeInputs_cons.mp h
    obtain hfirst | hlater := List.mem_append.mp he
    · exact hentry.port_answers (Option.mem_toList.mp hfirst)
    · exact ih hrest hlater

/-! ## Runs over events -/

theorem EntryEffect.shape_isSome {s t : State} {i : Input} (h : EntryEffect s i t)
    (hshape : (shapeOf s.buf).isSome = true) : (shapeOf t.buf).isSome = true := by
  cases h with
  | resets => rfl
  | waits => exact hshape
  | takes c ev t hrst hoff hready hrun hev => exact hev.shape_isSome hshape
  | answers => exact hshape

theorem entryEffect_eventCycle_of_stopped {s t : State} (hstop : s.stopped = true) {ev : InputEvent} :
    EntryEffect s (.cycle (eventCycle ev)) t ↔ t = s.hold := by
  rw [← runEntry_eq_next, runEntry, runCycle_of_stopped hstop (rst_eventCycle ev) (by simp)]
  simp [eq_comm]

/-- From every shape of buffer, stopped or not, an event goes on. -/
theorem exists_entryEffect {s : State} (hshape : (shapeOf s.buf).isSome = true) (ev : InputEvent) :
    ∃ t, EntryEffect s (.cycle (eventCycle ev)) t := by
  cases hstop : s.stopped with
  | true => exact ⟨_, (entryEffect_eventCycle_of_stopped hstop).mpr rfl⟩
  | false =>
    obtain ⟨r, hr⟩ := exists_interpret_of_shape hshape
    obtain ⟨t, ht⟩ := exists_eventEffect hr ev
    exact ⟨t, (entryEffect_eventCycle hstop).mpr ht⟩

/-- From every shape of buffer, a run over events completes. -/
theorem exists_observeInputs_events {s : State} (hshape : (shapeOf s.buf).isSome = true) (events : List InputEvent) :
    ∃ es t, observeInputs s (events.map fun ev => .cycle (eventCycle ev)) = .next (es, t) := by
  induction events generalizing s with
  | nil => exact ⟨_, _, observeInputs_nil s⟩
  | cons ev rest ih =>
    obtain ⟨v, hv⟩ := exists_entryEffect hshape ev
    obtain ⟨es, t, hrest⟩ := ih (hv.shape_isSome hshape)
    exact ⟨_, t, observeInputs_cons.mpr ⟨v, es, hv, hrest, rfl⟩⟩

/-- A stopped block presents nothing along a run of events and stays as it is. -/
theorem observeInputs_events_of_stopped {s : State} (hstop : s.stopped = true) (events : List InputEvent) :
    ∃ t, observeInputs s (events.map fun ev => .cycle (eventCycle ev)) = .next ([], t) ∧ SameBlock s t := by
  induction events generalizing s with
  | nil => exact ⟨_, observeInputs_nil s, sameBlock_withInput s []⟩
  | cons ev rest ih =>
    obtain ⟨t, ht, hsame⟩ := ih (s := s.hold) hstop
    have hfirst : EntryEffect s (.cycle (eventCycle ev)) s.hold := (entryEffect_eventCycle_of_stopped hstop).mpr rfl
    exact ⟨t, observeInputs_cons.mpr ⟨s.hold, [], hfirst, ht, rfl⟩, (sameBlock_hold s).trans hsame⟩

/-- A run over one event that a running block takes. -/
theorem observeInputs_event {s t : State} (hrun : s.stopped = false) {ev : InputEvent} (h : EventEffect s ev t) :
    observeInputs s [.cycle (eventCycle ev)] = .next (t.port.toList, t.withInput []) :=
  observeInputs_cons.mpr ⟨t, [], (entryEffect_eventCycle hrun).mpr h, rfl, (List.append_nil _).symm⟩

/-! ## Runs over bytes -/

/-- A run over bytes is a run over events. -/
theorem observeBytes_eq (s : State) (bytes : List Byte) :
    observeBytes s bytes = observeInputs s ((bytes.map InputEvent.byte).map fun ev => .cycle (eventCycle ev)) := by
  rw [observeBytes, List.map_map]
  rfl

theorem observeBytes_cons {s u : State} {b : Byte} {rest : List Byte} {es : List Emission} (hrun : s.stopped = false) :
    observeBytes s (b :: rest) = .next (es, u) ↔
      ∃ t es', EventEffect s (.byte b) t ∧ observeBytes t rest = .next (es', u) ∧ es = t.port.toList ++ es' := by
  simp only [← entryEffect_eventCycle hrun]
  exact observeInputs_cons

theorem observeBytes_append {s t u : State} {before after : List Byte} {es es' : List Emission}
    (h : observeBytes s before = .next (es, t)) (h' : observeBytes t after = .next (es', u)) :
    observeBytes s (before ++ after) = .next (es ++ es', u) := by
  rw [observeBytes, List.map_append]
  exact observeInputs_append h h'

theorem observeBytes_of_stopped {s : State} (hstop : s.stopped = true) (bytes : List Byte) :
    ∃ t, observeBytes s bytes = .next ([], t) ∧ SameBlock s t := by
  rw [observeBytes_eq]
  exact observeInputs_events_of_stopped hstop _

theorem exists_observeBytes {s : State} (hshape : (shapeOf s.buf).isSome = true) (bytes : List Byte) :
    ∃ es t, observeBytes s bytes = .next (es, t) := by
  rw [observeBytes_eq]
  exact exists_observeInputs_events hshape _

/-- What each byte of a run keeps, stopped blocks included, the run keeps. -/
theorem observeBytes_keeps {P : State → Prop} {bytes : List Byte}
    (hevent : ∀ b ∈ bytes, ∀ s t, P s → s.stopped = false → EventEffect s (.byte b) t → P t)
    (hsame : ∀ s s', SameBlock s s' → P s → P s') {s t : State} {es : List Emission}
    (h : observeBytes s bytes = .next (es, t)) (hs : P s) : P t := by
  refine observeInputs_keeps (fun i hi u v hu hentry => ?_) (fun u => hsame u _ (sameBlock_withInput u [])) h hs
  obtain ⟨b, hb, rfl⟩ := List.mem_map.mp hi
  cases hstop : u.stopped with
  | true =>
    obtain rfl := (entryEffect_eventCycle_of_stopped (ev := .byte b) hstop).mp hentry
    exact hsame u _ (sameBlock_hold u) hu
  | false => exact hevent b hb u v hu hstop ((entryEffect_eventCycle (ev := .byte b) hstop).mp hentry)

/-- No end of the stream was taken, and `fault` needs a finite capacity. -/
def State.StandsAfterBytes (s : State) : Prop :=
  s.fatal = false ∧ (s.fault = true → ∃ n, s.params.msgCap = some n)

theorem EventEffect.standsAfterBytes {s t : State} {b : Byte} (h : EventEffect s (.byte b) t)
    (hrun : s.stopped = false) : t.StandsAfterBytes := by
  refine ⟨?_, fun hset => ?_⟩
  · obtain ⟨-, hended⟩ | ⟨hclear, -⟩ := h.fatal_cause hrun
    · cases hended
    · exact hclear
  · obtain ⟨-, hfull, -, -⟩ := h.fault_full hrun hset
    rw [h.params_eq]
    exact ⟨_, hfull⟩

/-- Bytes never end the stream, and only a finite capacity can overflow (R84, R85). -/
theorem observeBytes_standsAfterBytes {s t : State} {bytes : List Byte} {es : List Emission}
    (hrun : s.stopped = false) (h : observeBytes s bytes = .next (es, t)) : t.StandsAfterBytes := by
  obtain ⟨hfatal, hfault⟩ := s.stopped_eq_false.mp hrun
  refine observeBytes_keeps (fun b hb u v _ hstop hev => hev.standsAfterBytes hstop) (fun u u' hsame hu => ?_) h
    ⟨hfatal, by simp [hfault]⟩
  simpa only [State.StandsAfterBytes, hsame.fatal_eq, hsame.fault_eq, hsame.params_eq] using hu

/-- Status bytes never stop the block (R82). -/
theorem observeBytes_status_running {s t : State} {bytes : List Byte} {es : List Emission} (hrun : s.stopped = false)
    (hbytes : ∀ b ∈ bytes, 128 ≤ b.toNat) (h : observeBytes s bytes = .next (es, t)) : t.stopped = false := by
  refine observeBytes_keeps (P := fun u => u.stopped = false) (fun b hb u v _ hstop hev => ?_)
    (fun u u' hsame hu => hsame.stopped_eq.trans hu) h hrun
  obtain ⟨-, hkept, -⟩ := hev.status_raw (hbytes b hb)
  exact hkept.trans hstop

end Sys2Proof.Machine
end

section
/-! The messages `frame_prefix` cuts from bytes (R90), as facts about lists of bytes alone. -/

namespace Sys2Proof.Machine

/-- `frame_prefix` from a buffer that already holds `buf`. -/
def frameFrom (buf bytes : List Byte) : List RawMessage × List Byte := bytes.foldl frameByte ([], buf)

theorem framePrefix_eq (bytes : List Byte) : framePrefix bytes = frameFrom [] bytes := rfl

@[simp] theorem frameFrom_nil (buf : List Byte) : frameFrom buf [] = ([], buf) := rfl

/-- The messages closed earlier stand before those that follow. -/
theorem foldl_frameByte (out : List RawMessage) (buf bytes : List Byte) :
    bytes.foldl frameByte (out, buf) = (out ++ (frameFrom buf bytes).1, (frameFrom buf bytes).2) := by
  induction bytes generalizing out buf with
  | nil => simp
  | cons b rest ih =>
    have hbyte : frameByte (out, buf) b = (out ++ (frameByte ([], buf) b).1, (frameByte ([], buf) b).2) := by
      unfold frameByte
      split_ifs <;> simp
    rw [frameFrom, List.foldl_cons, List.foldl_cons, hbyte, ih, ih, List.append_assoc]

theorem frameFrom_cons_data {b : Byte} (hb : b.toNat ≤ 127) (buf rest : List Byte) :
    frameFrom buf (b :: rest) = frameFrom (buf ++ [b]) rest := by
  simp [frameFrom, frameByte, hb]

theorem frameFrom_cons_status {b : Byte} (hb : 128 ≤ b.toNat) (buf rest : List Byte) :
    frameFrom buf (b :: rest) =
      ((if buf = [] then none else some buf).toList ++ (frameFrom [b] rest).1, (frameFrom [b] rest).2) := by
  have hnot : ¬ b.toNat ≤ 127 := by omega
  by_cases hbuf : buf = []
  · simp [frameFrom, frameByte, hnot, hbuf]
  · rw [frameFrom, List.foldl_cons, ← foldl_frameByte]
    simp [frameByte, hnot, hbuf]

/-- No byte is lost, duplicated or moved (R51, R90). -/
theorem frameFrom_flatten (buf bytes : List Byte) :
    (frameFrom buf bytes).1.flatten ++ (frameFrom buf bytes).2 = buf ++ bytes := by
  induction bytes generalizing buf with
  | nil => simp
  | cons b rest ih =>
    obtain hb | hb := Nat.lt_or_ge 127 b.toNat
    · rw [frameFrom_cons_status hb]
      by_cases hbuf : buf = [] <;> simp [hbuf, ih]
    · simp [frameFrom_cons_data hb, ih]

/-- Every status byte closes the buffer it finds, which is non-empty from the first byte on (R52). -/
theorem frameFrom_count {buf : List Byte} (hbuf : buf ≠ []) (bytes : List Byte) :
    (frameFrom buf bytes).1.length = bytes.countP isStatusByte := by
  induction bytes generalizing buf with
  | nil => simp
  | cons b rest ih =>
    obtain hb | hb := Nat.lt_or_ge 127 b.toNat
    · have hstatus : isStatusByte b = true := decide_eq_true hb
      simp [frameFrom_cons_status hb, hbuf, hstatus, ih, Nat.add_comm]
    · have hdata : isStatusByte b = false := decide_eq_false (by omega)
      simp [frameFrom_cons_data hb, hdata, ih]

theorem framePrefix_count (bytes : List Byte) : (framePrefix bytes).1.length = closedCount bytes := by
  cases bytes with
  | nil => rfl
  | cons b rest =>
    rw [framePrefix_eq]
    obtain hb | hb := Nat.lt_or_ge 127 b.toNat
    · have hstatus : isStatusByte b = true := decide_eq_true hb
      simp [frameFrom_cons_status hb, closedCount, hstatus, frameFrom_count]
    · have hdata : isStatusByte b = false := decide_eq_false (by omega)
      simp [frameFrom_cons_data hb, closedCount, hdata, frameFrom_count]

/-- Status bytes alone are messages of length 1 (R89). -/
theorem framePrefix_of_status (bytes : List Byte) (last : Byte) (h : ∀ b ∈ bytes ++ [last], 128 ≤ b.toNat) :
    framePrefix (bytes ++ [last]) = (bytes.map fun b => [b], [last]) := by
  have hrest (b : Byte) (bytes : List Byte) (h : ∀ d ∈ bytes ++ [last], 128 ≤ d.toNat) :
      frameFrom [b] (bytes ++ [last]) = ((b :: bytes).map fun b => [b], [last]) := by
    induction bytes generalizing b with
    | nil => simp [frameFrom_cons_status (h last (by simp))]
    | cons d rest ih =>
      rw [List.cons_append, frameFrom_cons_status (h d (by simp)), ih d fun x hx => h x (by simp [hx])]
      simp
  rw [framePrefix_eq]
  cases bytes with
  | nil => simp [frameFrom_cons_status (h last (by simp))]
  | cons b rest =>
    rw [List.cons_append, frameFrom_cons_status (h b (by simp)), hrest b rest fun x hx => h x (by simp [hx])]
    simp

/-- The message begins with a status byte. -/
def StartsWithStatus (m : RawMessage) : Prop := ∃ b rest, m = b :: rest ∧ 128 ≤ b.toNat

/-- The first message begins with the first byte there is; every later one, with the status byte that closed the message
before it. -/
theorem frameFrom_starts (buf bytes : List Byte) :
    (∀ m, (frameFrom buf bytes).1.head? = some m → m ≠ [] ∧ m.head? = (buf ++ bytes).head?) ∧
    ∀ m ∈ (frameFrom buf bytes).1.tail, StartsWithStatus m := by
  induction bytes generalizing buf with
  | nil => simp
  | cons b rest ih =>
    obtain hb | hb := Nat.lt_or_ge 127 b.toNat
    · obtain ⟨hhead, htail⟩ := ih [b]
      rw [frameFrom_cons_status hb]
      by_cases hbuf : buf = []
      · simpa [hbuf] using ih [b]
      · obtain ⟨first, more, rfl⟩ := List.exists_cons_of_ne_nil hbuf
        refine ⟨by simp, fun m hm => ?_⟩
        obtain hm : m ∈ (frameFrom [b] rest).1 := by simpa using hm
        cases hms : (frameFrom [b] rest).1 with
        | nil => simp [hms] at hm
        | cons m' ms =>
          rw [hms] at hm hhead htail
          obtain rfl | hlater := List.mem_cons.mp hm
          · obtain ⟨hne, hfirst⟩ := hhead m rfl
            obtain ⟨d, ds, rfl⟩ := List.exists_cons_of_ne_nil hne
            obtain rfl : d = b := by simpa using hfirst
            exact ⟨d, ds, rfl, hb⟩
          · exact htail m hlater
    · rw [frameFrom_cons_data hb]
      simpa using ih (buf ++ [b])

end Sys2Proof.Machine
end

section
/-! Runs over bytes present the messages of `frame_prefix` (R51, R52, R88 to R90, R119). -/

namespace Sys2Proof.Machine

/-- A byte that does not overflow does to the buffer what one step of `frame_prefix` does. -/
theorem EventEffect.frames {s t : State} {b : Byte} (h : EventEffect s (.byte b) t) (hfault : t.fault = false)
    (rest : List Byte) :
    frameFrom s.buf (b :: rest) =
      ((t.port.map Emission.raw).toList ++ (frameFrom t.buf rest).1, (frameFrom t.buf rest).2) := by
  obtain hb | hb := Nat.lt_or_ge 127 b.toNat
  · obtain ⟨hbuf, -, hraw⟩ := h.status_raw hb
    rw [frameFrom_cons_status hb, hbuf, hraw]
  · obtain ⟨-, rfl⟩ | ⟨-, rfl⟩ := h.data_cases hb
    · simp [frameFrom_cons_data hb]
    · cases hfault

/-- A run over bytes presents the messages of the bytes taken before it overflows, and of all of them if it ends
running. -/
theorem observeBytes_frames {s t : State} {bytes : List Byte} {es : List Emission} (hrun : s.stopped = false)
    (h : observeBytes s bytes = .next (es, t)) :
    ∃ taken, taken <+: bytes ∧ frameFrom s.buf taken = (es.map Emission.raw, t.buf) ∧
      (t.stopped = false → taken = bytes) := by
  induction bytes generalizing s es with
  | nil =>
    cases h
    exact ⟨[], List.prefix_rfl, rfl, fun _ => rfl⟩
  | cons b rest ih =>
    obtain ⟨v, esv, hev, hrest, rfl⟩ := (observeBytes_cons hrun).mp h
    cases hfault : v.fault with
    | false =>
      obtain ⟨hfatal, -⟩ := hev.standsAfterBytes hrun
      obtain ⟨taken, htaken, hframe, hall⟩ := ih (v.stopped_eq_false.mpr ⟨hfatal, hfault⟩) hrest
      refine ⟨b :: taken, (List.prefix_cons_inj b).mpr htaken, ?_, fun ht => by rw [hall ht]⟩
      have hfirst := hev.frames hfault taken
      rw [hframe] at hfirst
      rw [hfirst]
      cases v.port <;> rfl
    | true =>
      obtain ⟨-, -, hbuf, -⟩ := hev.fault_full hrun hfault
      have hstop : v.stopped = true := by simp [State.stopped, hfault]
      obtain ⟨u, hu, hsame⟩ := observeBytes_of_stopped hstop rest
      rw [hu] at hrest
      cases hrest
      have hport : v.port = none := by
        obtain hb | hb := Nat.lt_or_ge 127 b.toNat
        · obtain ⟨-, hkept, -⟩ := hev.status_raw hb
          simp [hstop, hrun] at hkept
        · obtain ⟨-, rfl⟩ | ⟨-, rfl⟩ := hev.data_cases hb <;> rfl
      refine ⟨[], List.nil_prefix, ?_, fun ht => ?_⟩
      · simp [hport, hsame.buf_eq, hbuf]
      · simp [hsame.stopped_eq, hstop] at ht

/-- A run over bytes that ends running presents the messages of all of them. -/
theorem observeBytes_frames_running {s t : State} {bytes : List Byte} {es : List Emission} (hrun : s.stopped = false)
    (h : observeBytes s bytes = .next (es, t)) (ht : t.stopped = false) :
    frameFrom s.buf bytes = (es.map Emission.raw, t.buf) := by
  obtain ⟨taken, -, hframe, hall⟩ := observeBytes_frames hrun h
  rw [← hall ht, hframe]

/-- From an empty buffer a run over bytes completes. -/
theorem exists_observeBytes_of_buf_nil {s : State} (hbuf : s.buf = []) (bytes : List Byte) :
    ∃ es t, observeBytes s bytes = .next (es, t) :=
  exists_observeBytes (by rw [hbuf]; rfl) bytes

/-! ## How the messages of a run begin -/

/-- A message that begins with a status byte is not unknown (R103). -/
theorem ne_unknown_of_startsWithStatus {m : RawMessage} (h : StartsWithStatus m) (kind : Kind) :
    interpret m ≠ some (.err (.unknownCommand kind)) := by
  obtain ⟨b, rest, rfl, hb⟩ := h
  exact (emptyAndUnknownAnswered.2 b rest).2 hb kind

/-- An unknown command is that of a data byte, with its high nibble (R103). -/
theorem exists_data_of_unknown {m : RawMessage} {kind : Kind} (h : interpret m = some (.err (.unknownCommand kind))) :
    ∃ b rest, m = b :: rest ∧ b.toNat ≤ 127 ∧ kind = BitVec.ofNat 4 (b.toNat / 16) := by
  cases m with
  | nil => simp at h
  | cons b rest =>
    obtain ⟨hdata, hstatus⟩ := emptyAndUnknownAnswered.2 b rest
    have hb : b.toNat ≤ 127 := by
      by_contra hb
      exact hstatus (by omega) kind h
    refine ⟨b, rest, rfl, hb, ?_⟩
    rw [hdata hb] at h
    simpa using h.symm

/-- From an empty buffer, the first message presented begins with the run's first byte, every later one with a status
byte. -/
theorem observeBytes_starts {s t : State} {bytes : List Byte} {es : List Emission} (hrun : s.stopped = false)
    (hbuf : s.buf = []) (h : observeBytes s bytes = .next (es, t)) :
    (∀ e, es.head? = some e → e.raw ≠ [] ∧ e.raw.head? = bytes.head?) ∧ ∀ e ∈ es.tail, StartsWithStatus e.raw := by
  obtain ⟨taken, ⟨after, rfl⟩, hframe, -⟩ := observeBytes_frames hrun h
  obtain ⟨hhead, htail⟩ := frameFrom_starts s.buf taken
  rw [hframe] at hhead htail
  rw [hbuf, List.nil_append] at hhead
  refine ⟨fun e he => ?_, fun e he => ?_⟩
  · obtain ⟨hne, hfirst⟩ := hhead e.raw (by rw [List.head?_map, he]; rfl)
    obtain ⟨b, rest, hraw⟩ := List.exists_cons_of_ne_nil hne
    rw [hraw, List.head?_cons] at hfirst
    exact ⟨hne, by rw [hraw, List.head?_append, ← hfirst]; rfl⟩
  · exact htail e.raw (by rw [← List.map_tail]; exact List.mem_map_of_mem he)

/-! ## The obligations -/

/-- Settles O43: with no capacity to overflow the run stays running, so it presents the messages of all bytes. -/
theorem runIsFramePrefix : Obligations.RunIsFramePrefix := by
  intro s bytes hrun hbuf hcap
  refine ⟨?_, by rw [framePrefix_eq, frameFrom_flatten, List.nil_append]⟩
  obtain ⟨es, t, h⟩ := exists_observeBytes_of_buf_nil hbuf bytes
  obtain ⟨hfatal, hfault⟩ := observeBytes_standsAfterBytes hrun h
  rw [show t.params = s.params from observeInputs_params h, hcap] at hfault
  have ht : t.stopped = false := t.stopped_eq_false.mpr ⟨hfatal, by simpa using hfault⟩
  have hframe := observeBytes_frames_running hrun h ht
  rw [hbuf, ← framePrefix_eq] at hframe
  exact ⟨es, t, h, by rw [hframe], by rw [hframe], ht, observeInputs_input h, fun e => observeInputs_answers h⟩

/-- Settles O44: what `frame_prefix` cuts from the buffer and the bytes is the buffer and the bytes. -/
theorem noByteIsLost : Obligations.NoByteIsLost := by
  intro s t bytes es hrun h ht
  have hflat := frameFrom_flatten s.buf bytes
  rwa [observeBytes_frames_running hrun h ht] at hflat

/-- Settles O45: the number of messages of `frame_prefix`. -/
theorem outputCount : Obligations.OutputCount := by
  intro s t bytes es hrun hbuf h ht
  have hframe := observeBytes_frames_running hrun h ht
  rw [hbuf, ← framePrefix_eq] at hframe
  rw [← framePrefix_count, hframe, List.length_map]

/-- Settles O47: status bytes leave the block running, and `frame_prefix` makes each a message. -/
theorem consecutiveStatusBytes : Obligations.ConsecutiveStatusBytes := by
  intro s bs last hrun hbuf hstatus
  obtain ⟨es, t, h⟩ := exists_observeBytes_of_buf_nil hbuf (bs ++ [last])
  have hframe := observeBytes_frames_running hrun h (observeBytes_status_running hrun hstatus h)
  rw [hbuf, ← framePrefix_eq, framePrefix_of_status bs last hstatus] at hframe
  obtain ⟨hraw, hlast⟩ := Prod.mk.inj hframe
  exact ⟨es, t, h, hraw.symm, hlast.symm⟩

/-- Settles O48: every message is non-empty, and only the first can begin with a data byte, the first byte of the
run. -/
theorem errorsOfTheComposedBlock : Obligations.ErrorsOfTheComposedBlock := by
  intro s t bytes es hrun hbuf h
  obtain ⟨hfirst, hlater⟩ := observeBytes_starts hrun hbuf h
  have hanswer {e : Emission} {x : DecodeError} (he : e ∈ es) (hx : e.result = .err x) :
      interpret e.raw = some (.err x) := hx ▸ observeInputs_answers h he
  refine ⟨fun e he hempty => ?_, fun e he kind hkind => ?_, fun e kind he hkind => ?_⟩
  · have hnil : e.raw = [] := (emptyAndUnknownAnswered.1 e.raw).mp (hanswer he hempty)
    cases es with
    | nil => cases he
    | cons e' es =>
      obtain rfl | he := List.mem_cons.mp he
      · exact (hfirst e rfl).1 hnil
      · obtain ⟨b, rest, hcons, -⟩ := hlater e he
        simp [hnil] at hcons
  · exact ne_unknown_of_startsWithStatus (hlater e he) kind (hanswer (List.mem_of_mem_tail he) hkind)
  · obtain ⟨b, rest, hraw, hb, rfl⟩ := exists_data_of_unknown (hanswer (List.mem_of_mem_head? he) hkind)
    obtain ⟨-, hbyte⟩ := hfirst e he
    rw [hraw, List.head?_cons] at hbyte
    exact ⟨b, hbyte.symm, hb, rfl⟩

end Sys2Proof.Machine
end

section
/-! One message held back whole, closed, or too long (R85, R88, R169); cycles without a transfer left out (R45); and
runs as the spec defines them (R172). -/

namespace Sys2Proof.Machine

/-! ## A message that fits -/

/-- Presenting what is presented already changes nothing. -/
theorem State.withPort_of_port_eq {s : State} {out : Option Emission} (h : s.port = out) : s.withPort out = s := by
  subst h
  rfl

/-- Data bytes that fit are appended one by one and present nothing (R83). -/
theorem observeBytes_data {s : State} {ds : List Byte} (hrun : s.stopped = false) (hport : s.port = none)
    (hds : ∀ d ∈ ds, d.toNat ≤ 127) (hfits : ∀ n, s.params.msgCap = some n → s.buf.length + ds.length ≤ n) :
    observeBytes s ds = .next ([], (s.withBuf (s.buf ++ ds)).withInput []) := by
  induction ds generalizing s with
  | nil => rw [List.append_nil, State.withBuf_of_buf_eq rfl, observeBytes, List.map_nil, observeInputs_nil]
  | cons d rest ih =>
    have hroom : s.params.msgCap ≠ some s.buf.length := by
      intro hcap
      have := hfits _ hcap
      simp at this
    have hev := EventEffect.appends d (hds d (by simp)) hroom
    rw [State.withPort_of_port_eq hport] at hev
    have hrest := ih (s := s.withBuf (s.buf ++ [d])) hrun hport (fun x hx => hds x (by simp [hx])) fun n hcap => by
      have := hfits n hcap
      simp only [State.withBuf_buf, List.length_append, List.length_cons, List.length_nil] at this ⊢
      omega
    rw [State.withBuf_buf, List.append_assoc] at hrest
    exact (observeBytes_cons hrun).mpr ⟨_, [], hev, hrest, by rw [State.withBuf_port, hport]; rfl⟩

/-- The state that holds one message back. -/
def State.holdingBack (s : State) (m : RawMessage) : State := { s with buf := m, port := none, input := [] }

/-- A status byte and data bytes that fit stand in the buffer, and nothing is presented (R88). -/
theorem observeBytes_message {s : State} {b : Byte} {ds : List Byte} (hrun : s.stopped = false) (hbuf : s.buf = [])
    (hb : 128 ≤ b.toNat) (hds : ∀ d ∈ ds, d.toNat ≤ 127)
    (hfits : ∀ n, s.params.msgCap = some n → ds.length + 1 ≤ n) :
    observeBytes s (b :: ds) = .next ([], s.holdingBack (b :: ds)) := by
  have hrest := observeBytes_data (s := (s.withPort none).withBuf [b]) hrun rfl hds fun n hcap => by
    rw [Nat.add_comm]
    exact hfits n hcap
  exact (observeBytes_cons hrun).mpr ⟨_, [], .opens b hb hbuf, hrest, rfl⟩

/-- A status byte and data bytes are a message with a result (R22, R108). -/
theorem exists_interpret_of_data (b : Byte) {ds : List Byte} (hds : ∀ d ∈ ds, d.toNat ≤ 127) :
    ∃ r, interpret (b :: ds) = some r := by
  refine exists_interpret_of_shape (shapeOf_isSome.mpr fun d hd => ?_)
  have := hds d hd
  omega

/-- Settles O46: the message is held back, and one more event closes it. -/
theorem oneMessageIsOneEmission : Obligations.OneMessageIsOneEmission := by
  intro s b ds hrun hbuf hb hds hfits
  obtain ⟨r, hr⟩ := exists_interpret_of_data b hds
  have hheld := observeBytes_message hrun hbuf hb hds hfits
  have hheldrun : (s.holdingBack (b :: ds)).stopped = false := hrun
  have hne : (s.holdingBack (b :: ds)).buf ≠ [] := by simp [State.holdingBack]
  refine ⟨r, hr, hheld, fun b' hb' => ?_, fun hflush => ?_⟩
  · exact ⟨_, observeBytes_append hheld (observeInputs_event hheldrun (.closes b' r hb' hne hr)), rfl⟩
  · exact ⟨_, observeInputs_append hheld (observeInputs_event hheldrun (.flushes r hflush hne hr)), rfl, rfl⟩

/-! ## A message that does not fit -/

/-- A data byte on a full buffer stops the block for the rest of the run (R85). -/
theorem observeBytes_overflow {s : State} {d : Byte} {more : List Byte} (hrun : s.stopped = false)
    (hd : d.toNat ≤ 127) (hfull : s.params.msgCap = some s.buf.length) :
    ∃ t, observeBytes s (d :: more) = .next ([], t) ∧ t.fault = true ∧ t.buf = s.buf := by
  have hstop : ((s.withPort none).raise .bufferOverflow).stopped = true := by simp [State.stopped]
  obtain ⟨t, ht, hsame⟩ := observeBytes_of_stopped hstop more
  exact ⟨t, (observeBytes_cons hrun).mpr ⟨_, [], .overflows d hd hfull, ht, rfl⟩, hsame.fault_eq, hsame.buf_eq⟩

/-- Settles O50: the first `n` bytes are held back, and the next data byte overflows. -/
theorem longMessageFaults : Obligations.LongMessageFaults := by
  intro s n b ds hrun hbuf hcap hn hb hds hlong
  obtain ⟨d, more, hsplit⟩ := List.exists_cons_of_length_pos (l := ds.drop (n - 1)) (by rw [List.length_drop]; omega)
  have hds' : ds = ds.take (n - 1) ++ d :: more := by rw [← hsplit, List.take_append_drop]
  have hlen : (ds.take (n - 1)).length + 1 = n := by
    rw [List.length_take]
    omega
  have hheld := observeBytes_message hrun hbuf hb (ds := ds.take (n - 1))
    (fun x hx => hds x (List.mem_of_mem_take hx)) fun m hm => by
      rw [hcap, Option.some_inj] at hm
      omega
  obtain ⟨t, ht, hfault, hkept⟩ := observeBytes_overflow (s := s.holdingBack (b :: ds.take (n - 1))) (d := d)
    (more := more) hrun (hds d (by rw [hds']; simp)) (by rw [← hlen] at hcap; exact hcap)
  have hall := observeBytes_append hheld ht
  rw [List.cons_append, ← hds'] at hall
  refine ⟨t, hall, hfault, ?_, fun es => status_of_fault hfault, ?_⟩
  · obtain ⟨k, rfl⟩ := Nat.exists_eq_add_of_le' hn
    exact hkept
  · rw [hall, Bool.eq_false_iff]
    intro hsafe
    obtain ⟨-, hclear⟩ := endsSafely_next.mp hsafe
    simp [hfault] at hclear

/-! ## Cycles without a transfer -/

/-- A cycle in which nothing can be transferred holds, from every state (R57). -/
theorem EntryEffect.eq_hold_of_waitingCycle {s t : State} {i : Input} (h : EntryEffect s i t)
    (hwait : waitingCycle i = true) : t = s.hold := by
  cases h with
  | resets c hrst => simp [waitingCycle, hrst] at hwait
  | waits => rfl
  | takes c ev t hrst hoff hready =>
    obtain ⟨-, -, -, hsink⟩ := State.srcReady_eq_true.mp hready
    simp [waitingCycle, hoff, hsink] at hwait
  | answers => cases hwait

/-- A run without the cycles in which nothing is transferred presents the same and ends in the same block, from every
state with the same block. -/
theorem observeInputs_filter {s s' t : State} {inputs : List Input} {es : List Emission} (hsame : SameBlock s s')
    (h : observeInputs s inputs = .next (es, t)) :
    ∃ t', observeInputs s' (inputs.filter fun i => !waitingCycle i) = .next (es, t') ∧ SameBlock t t' := by
  induction inputs generalizing s s' es with
  | nil =>
    cases h
    obtain ⟨out, rest, rfl⟩ := hsame
    exact ⟨_, rfl, out, [], rfl⟩
  | cons i rest ih =>
    obtain ⟨v, esv, hentry, hrest, rfl⟩ := observeInputs_cons.mp h
    obtain ⟨out, before, rfl⟩ := hsame
    cases hwait : waitingCycle i with
    | true =>
      obtain rfl := hentry.eq_hold_of_waitingCycle hwait
      rw [List.filter_cons_of_neg (by simp [hwait])]
      exact ih (s := s.hold) ⟨out, before, rfl⟩ hrest
    | false =>
      rw [List.filter_cons_of_pos (by simp [hwait])]
      obtain ⟨t', ht', hsame'⟩ := ih (sameBlock_withInput v before) hrest
      exact ⟨t', observeInputs_cons.mpr ⟨_, esv, hentry.reframe out before, ht', rfl⟩, hsame'⟩

/-- Settles O49: a run and its filtered run keep step. -/
theorem chunkingIsInvisible : Obligations.ChunkingIsInvisible := by
  intro s t inputs es h
  obtain ⟨t', ht', hsame⟩ := observeInputs_filter (SameBlock.refl s) h
  exact ⟨t', ht', hsame.buf_eq, hsame.fatal_eq, hsame.fatalCause_eq, hsame.fault_eq⟩

/-! ## Runs from reset (R172) -/

/-- The events of a run are bytes, and then at most one end of the stream. -/
theorem onlyLastEnds_cases {events : List InputEvent} (h : onlyLastEnds events = true) :
    ∃ bytes : List Byte, events = bytes.map .byte ∨ ∃ cause, events = bytes.map .byte ++ [.ended cause] := by
  match events with
  | [] => exact ⟨[], .inl rfl⟩
  | [.byte b] => exact ⟨[b], .inl rfl⟩
  | [.ended cause] => exact ⟨[], .inr ⟨cause, rfl⟩⟩
  | .byte b :: ev :: rest =>
    obtain ⟨bytes, hbytes⟩ := onlyLastEnds_cases (events := ev :: rest) h
    refine ⟨b :: bytes, ?_⟩
    obtain hall | ⟨cause, hlast⟩ := hbytes
    · exact .inl (by rw [hall, List.map_cons])
    · exact .inr ⟨cause, by rw [hlast, List.map_cons, List.cons_append]⟩
  | .ended _ :: _ :: _ => cases h

/-- The reset state of a run. -/
def Run.start (r : Run) : State := { State.reset with params := r.params }

theorem Run.observe_of_observeInputs {r : Run} {es : List Emission} {t : State}
    (h : observeInputs r.start (r.events.map fun ev => .cycle (eventCycle ev)) = .next (es, t)) :
    r.observe = .next (observationOf es t) := by
  rw [Run.start] at h
  rw [Run.observe, h]

theorem Run.start_inv (r : Run) : r.start.Inv := invariantAtReset r.params [] r.params_wf

/-- A run that overflowed is a fault, not an end, and its capacity is finite (R26, R85, R172). -/
theorem Run.faulted_of_fault {r : Run} {inputs : List Input} {es : List Emission} {t : State}
    (h : observeInputs r.start inputs = .next (es, t)) (hfault : t.fault = true) :
    (observationOf es t).status = .faulted ∧ t.fatal = false ∧ ∃ n, r.params.msgCap = some n := by
  have hinv := observeInputs_inv h r.start_inv
  have hfull := hinv.fault_full hfault
  rw [show t.params = r.params from observeInputs_params h] at hfull
  have hone := hinv.one_stop
  exact ⟨status_of_fault hfault, by simpa [hfault] using hone, _, hfull⟩

/-- A run over bytes waits when it does not overflow (R172). -/
theorem status_of_bytes {s t : State} {bytes : List Byte} {es : List Emission} (hrun : s.stopped = false)
    (h : observeBytes s bytes = .next (es, t)) (hfault : t.fault = false) :
    (observationOf es t).status = .waiting :=
  status_eq_waiting.mpr ⟨hfault, (observeBytes_standsAfterBytes hrun h).1⟩

/-- An end of the stream after a run over bytes ends it, unless the bytes overflowed (R84, R172). -/
theorem status_of_ended {s u : State} {cause : Cause} {es : List Emission} (hfatal : s.fatal = false)
    (h : observeInputs s [.cycle (eventCycle (.ended cause))] = .next (es, u)) (hfault : u.fault = false)
    (shown : List Emission) : (observationOf shown u).status = .ended cause := by
  obtain ⟨t, _, hentry, hnil, _⟩ := observeInputs_cons.mp h
  cases hnil
  cases hstop : s.stopped with
  | true =>
    obtain rfl := (entryEffect_eventCycle_of_stopped hstop).mp hentry
    have hclear : s.fault = false := hfault
    simp [State.stopped, hfatal, hclear] at hstop
  | false =>
    obtain ⟨hset, hcause, -⟩ := ((entryEffect_eventCycle hstop).mp hentry).ended_flags
    exact status_eq_ended.mpr ⟨hfault, hset, hcause⟩

/-- A run over bytes extends by any event to a run that presents the same and perhaps more (R172). -/
theorem Run.exists_extension {r : Run} {bytes : List Byte} {es : List Emission} {t : State}
    (hevents : r.events = bytes.map .byte) (h : observeBytes r.start bytes = .next (es, t)) (ev : InputEvent) :
    ∃ r' : Run, r'.params = r.params ∧ r'.events = r.events ++ [ev] ∧
      ∃ o, r'.observe = .next o ∧ es <+: o.outputs := by
  have hlast : onlyLastEnds (r.events ++ [ev]) = true := by
    refine onlyLastEnds_append (fun x hx => ?_) ev
    obtain ⟨b, -, rfl⟩ := List.mem_map.mp (hevents ▸ hx)
    exact ⟨b, rfl⟩
  have hshape := (observeInputs_inv h r.start_inv).buf_shape
  obtain ⟨es', u, hu⟩ := exists_observeInputs_events hshape [ev]
  rw [observeBytes_eq, ← hevents] at h
  have hall := observeInputs_append h hu
  rw [← List.map_append] at hall
  exact ⟨⟨r.params, r.events ++ [ev], r.params_wf, hlast⟩, rfl, rfl, _,
    Run.observe_of_observeInputs (r := ⟨r.params, r.events ++ [ev], r.params_wf, hlast⟩) hall,
    List.prefix_append es es'⟩

/-- Settles O55: a run is bytes, which wait and can be extended, or bytes and an end of the stream, which end it. -/
theorem runsObserved : Obligations.RunsObserved := by
  intro r
  have hrun : r.start.stopped = false := rfl
  have hshape := r.start_inv.buf_shape
  obtain ⟨bytes, hevents | ⟨cause, hevents⟩⟩ := onlyLastEnds_cases r.end_last
  · obtain ⟨es, t, h⟩ := exists_observeBytes hshape bytes
    have hinputs := h
    rw [observeBytes_eq, ← hevents] at hinputs
    refine ⟨_, Run.observe_of_observeInputs hinputs, Run.faulted_of_fault hinputs, fun hfault => ?_, fun _ => ?_⟩
    · rw [status_of_bytes hrun h hfault, hevents, List.getLast?_map]
      cases bytes.getLast? <;> rfl
    · exact Run.exists_extension hevents h
  · obtain ⟨es, t, h⟩ := exists_observeBytes hshape bytes
    obtain ⟨es', u, hlast⟩ := exists_observeInputs_events (observeInputs_inv h r.start_inv).buf_shape [.ended cause]
    have hinputs := h
    rw [observeBytes_eq] at hinputs
    replace hinputs := observeInputs_append hinputs hlast
    rw [← List.map_append, ← hevents] at hinputs
    have hended := status_of_ended (observeBytes_standsAfterBytes hrun h).1 hlast
    refine ⟨_, Run.observe_of_observeInputs hinputs, Run.faulted_of_fault hinputs, fun hfault => ?_, fun hwaiting => ?_⟩
    · rw [hended hfault, hevents, List.getLast?_concat]
    · obtain ⟨hfault, -⟩ := status_eq_waiting.mp hwaiting
      rw [hended hfault] at hwaiting
      cases hwaiting

end Sys2Proof.Machine
end

section
/-! The signals of the raw-message port and the event port, from the message presented (R33, R34, R136). -/

namespace Sys2Proof.Machine

/-! ## A decoded event's signals -/

theorem fieldSignal_eq (e : Event) (i : Nat) : fieldSignal e i = (e.fields.map Prod.snd)[i]?.getD 0 := by
  rw [fieldSignal, List.getElem?_map]
  cases e.fields[i]? <;> rfl

section
variable {cmd : Command} {values : List FieldValue} (hlen : values.length = (fieldsOfCommand cmd).length)
  (c : Channel) (raw : RawMessage)
include hlen

/-- The field signals are the field values, 0 where there is none (R34). -/
theorem fieldSignal_buildEvent (i : Nat) : fieldSignal (buildEvent cmd c raw values) i = values[i]?.getD 0 := by
  rw [fieldSignal_eq, buildEvent, List.map_snd_zip hlen.le]

/-- The value signal is 0 but for `pitch-bend` (R34, R106). -/
theorem value_getD_buildEvent :
    ((buildEvent cmd c raw values).value.getD 0).toNat =
      if cmd = .pitchBend then (values[0]?.getD 0).toNat + 128 * (values[1]?.getD 0).toNat else 0 := by
  by_cases hbend : cmd = .pitchBend
  · subst hbend
    obtain ⟨lsb, msb, rfl⟩ := List.length_eq_two.mp hlen
    simp [buildEvent, derivedValue, bendValue_toNat]
  · have hnone : (buildEvent cmd c raw values).value = none := by
      rw [← Option.not_isSome_iff_eq_none, value_buildEvent hlen]
      exact hbend
    rw [if_neg hbend, hnone]
    rfl

end

/-- A message's byte after the first is the field value it carries (R62, R68). -/
theorem getElem?_dataBytes (b : Byte) (values : List FieldValue) (i : Nat) :
    ((b :: values.map dataByteOf)[i + 1]?.getD 0).toNat = (values[i]?.getD 0).toNat := by
  rw [List.getElem?_cons_succ, List.getElem?_map]
  cases values[i]? with
  | none => rfl
  | some v => exact dataByteOf_toNat v

/-- A field count fits the two bits of `ev_nf` and `ev_expected` (R27, R34). -/
theorem fieldCount_toNat (cmd : Command) :
    (BitVec.ofNat 2 (fieldsOfCommand cmd).length).toNat = (fieldsOfCommand cmd).length := by
  cases cmd <;> rfl

/-- The signals of a decoded event, in terms of its message. -/
theorem resultPort_ok (lenW : Nat) {b : Byte} {rest : List Byte} {e : Event}
    (h : interpret (b :: rest) = some (.ok e)) :
    (resultPort lenW (.ok e)).evKind.toNat = b.toNat / 16 ∧
    (resultPort lenW (.ok e)).evChannel.toNat = b.toNat % 16 ∧
    (resultPort lenW (.ok e)).evNf.toNat = rest.length ∧
    (resultPort lenW (.ok e)).evF0.toNat = ((b :: rest)[1]?.getD 0).toNat ∧
    (resultPort lenW (.ok e)).evF1.toNat = ((b :: rest)[2]?.getD 0).toNat ∧
    ((resultPort lenW (.ok e)).evValueValid = true ↔ b.toNat / 16 = 14) ∧
    (resultPort lenW (.ok e)).evValue.toNat =
      (if b.toNat / 16 = 14 then ((b :: rest)[1]?.getD 0).toNat + 128 * ((b :: rest)[2]?.getD 0).toNat else 0) := by
  obtain ⟨cmd, values, hrow, hlen, hvalues, rfl⟩ := interpret_cons_eq_ok.mp h
  obtain rfl := fieldValues_some.mp hvalues
  have hkind := tableLookup_kindOf_eq_some.mp hrow
  have hbend : cmd = .pitchBend ↔ b.toNat / 16 = 14 := by
    rw [hkind]
    exact (fieldCount_of_kind cmd).2
  have hcount : values.length = (fieldsOfCommand cmd).length := by rw [hlen, List.length_map]
  rw [getElem?_dataBytes b values 0, getElem?_dataBytes b values 1, ← hlen]
  refine ⟨hkind.symm, channelOf_toNat b, ?_, ?_, ?_, ?_, ?_⟩
  · rw [← fieldCount_toNat, ← length_fields_buildEvent hcount]
    rfl
  · exact congrArg BitVec.toNat (fieldSignal_buildEvent hcount _ _ 0)
  · exact congrArg BitVec.toNat (fieldSignal_buildEvent hcount _ _ 1)
  · exact (value_buildEvent hcount _ _).trans hbend
  · simp only [← hbend]
    exact value_getD_buildEvent hcount _ _

/-! ## The answers that are errors -/

theorem interpret_eq_empty {m : RawMessage} (h : interpret m = some (.err .empty)) : m = [] :=
  (emptyAndUnknownAnswered.1 m).mp h

/-- An arity error carries the row's field count and the number of bytes after the first (R104). -/
theorem exists_row_of_arity {m : RawMessage} {expected actual : Nat}
    (h : interpret m = some (.err (.arityMismatch expected actual))) :
    ∃ b rest cmd, m = b :: rest ∧ b.toNat / 16 = (kindOfCommand cmd).toNat ∧
      expected = (fieldsOfCommand cmd).length ∧ actual = rest.length ∧ expected ≠ actual := by
  cases m with
  | nil => simp at h
  | cons b rest =>
    obtain ⟨-, herror⟩ | ⟨cmd, hrow, hne, herror⟩ := interpret_cons_eq_err.mp h
    · cases herror
    · cases herror
      exact ⟨b, rest, cmd, rfl, tableLookup_kindOf_eq_some.mp hrow, rfl, rfl, hne⟩

/-! ## The obligations -/

/-- Settles O51: the four kinds of answer, each from the message it answers. -/
theorem eventPortSignals : Obligations.EventPortSignals := by
  intro lenW m r h
  refine ⟨fun cap out => ?_, rfl, rfl, ?_, ?_⟩
  · obtain _ | ⟨raw, e | (_ | kind | ⟨expected, actual⟩)⟩ := out <;> rfl
  · obtain e | (_ | kind | ⟨expected, actual⟩) := r <;> rfl
  · match r with
    | .ok e =>
      have hraw := raw_of_interpret_ok h
      cases m with
      | nil => cases h
      | cons b rest =>
        obtain ⟨hkind, hchannel, hcount, hfirst, hsecond, hvalid, hvalue⟩ := resultPort_ok lenW h
        exact ⟨b, rest, rfl, hraw, rfl, hkind, hchannel, hcount, hfirst, hsecond, hvalid, hvalue, rfl, rfl⟩
    | .err .empty => exact ⟨interpret_eq_empty h, rfl⟩
    | .err (.unknownCommand kind) =>
      obtain ⟨b, rest, rfl, hb, rfl⟩ := exists_data_of_unknown h
      have hkind : (BitVec.ofNat 4 (b.toNat / 16)).toNat = b.toNat / 16 := Nat.mod_eq_of_lt (by omega)
      exact ⟨⟨b, rest, rfl, hkind⟩, hkind.trans_le (by omega), rfl⟩
    | .err (.arityMismatch expected actual) =>
      obtain ⟨b, rest, cmd, rfl, hkind, rfl, rfl, hne⟩ := exists_row_of_arity h
      exact ⟨⟨b, rest, cmd, rfl, hkind.symm, rfl, rfl⟩, length_fieldsOfCommand_le_two cmd, hne, rfl,
        fieldCount_toNat cmd, rfl⟩

/-- The bytes of a message that fits, and zeros after them (R33). -/
theorem paddedBytes_of_fits {n : Nat} {raw : RawMessage} (hfits : raw.length ≤ n) :
    (paddedBytes (some n) raw).length = n ∧ ∀ i, i < n → (paddedBytes (some n) raw)[i]? = some (raw[i]?.getD 0) := by
  refine ⟨?_, fun i hi => ?_⟩
  · rw [paddedBytes, List.length_append, List.length_replicate]
    omega
  · rw [paddedBytes]
    obtain hin | hout := Nat.lt_or_ge i raw.length
    · rw [List.getElem?_append_left hin, List.getElem?_eq_getElem hin, Option.getD_some]
    · rw [List.getElem?_append_right hout, List.getElem?_eq_none hout, List.getElem?_replicate, if_pos (by omega),
        Option.getD_none]

/-- Settles O52: what a cycle presents is the buffer, which the invariant keeps within the capacity. -/
theorem countSignalsDoNotWrap : Obligations.CountSignalsDoNotWrap := by
  intro s t c rest lenW n e hinv hcap hwidth h hport
  obtain ⟨-, hraw, -, hres, -⟩ := onlyClosingPresents s t c rest e h hport
  have hfits : e.raw.length ≤ n := by
    rw [hraw]
    exact hinv.buf_fits n hcap
  obtain ⟨hpadded, hbytes⟩ := paddedBytes_of_fits hfits
  rw [hport]
  refine ⟨Nat.mod_eq_of_lt (by omega), hpadded, hbytes, fun expected actual harity => ?_⟩
  rw [harity, ← hraw] at hres
  obtain ⟨b, bytes, cmd, hcons, -, -, rfl, -⟩ := exists_row_of_arity hres
  rw [hcons, List.length_cons] at hfits
  rw [eventPort, harity]
  exact Nat.mod_eq_of_lt (by omega)

end Sys2Proof.Machine
end
